-- ==== Sys2Proof/Word.lean ====
section
/-! DEFINITION. The word types of the block: a buffer byte and a 32-bit command or result word.
spec/00_scope.md R6 (u8, u32), R5 (command word 32 bits, RES 32 bits). -/

namespace Sys2Proof

/-- A `u8` of spec/00_scope.md R6: one byte of the frame buffer or of a staged operand. -/
abbrev Byte := BitVec 8

/-- A `u32` of spec/00_scope.md R6: a command word, the result register, a host register view. -/
abbrev Word := BitVec 32

end Sys2Proof
end

