-- ==== Sys2Proof/Config.lean ====
section
/-! DEFINITION. The four parameters of spec/00_scope.md R4, and their legal values (R4, R5).
The values of this hardware are in Machine/Hardware. -/

namespace Sys2Proof

/-- The four readings of the nibble extractors, spec/43_field_extractor.md R108. -/
inductive NibbleMap where
  | hiLoPlain
  | loHiPlain
  | hiPlainLoRev
  | loPlainHiRev
deriving DecidableEq, Repr

/-- The parameters of spec/00_scope.md R4. They are fixed for a machine and are not state. -/
structure Config where
  /-- `BUF_CAP`: capacity of the frame buffer in bytes. -/
  bufCap : Nat
  /-- `OPND_CAP`: capacity of each operand staging register in bytes. -/
  opndCap : Nat
  /-- `VERIFY_MIN_LEN`: least buffer length VERIFY accepts. -/
  verifyMinLen : Nat
  /-- `NIBBLE_MAP`: which bits XDP and XDS return. -/
  nibbleMap : NibbleMap
deriving DecidableEq, Repr

/-- The legal parameter values: the last column of spec/00_scope.md R4 with R5's two inequalities. -/
abbrev Config.Legal (c : Config) : Prop :=
  13 ≤ c.bufCap ∧ c.bufCap ≤ 255 ∧ 2 * c.opndCap + 7 ≤ c.bufCap ∧
    1 ≤ c.opndCap ∧ c.opndCap ≤ 124 ∧ (c.verifyMinLen = 4 ∨ c.verifyMinLen = 5)

end Sys2Proof
end

