-- ==== Sys2Proof/Machine/Hardware.lean ====
section
/-! DEFINITION. The parameter values of this hardware, the defaults of spec/00_scope.md R4. -/

namespace Sys2Proof

/-- This hardware: "Each has a default, which is the value of this hardware" (spec/00_scope.md R4).
The two that change computed values are marked UNVERIFIED in notes/assumptions/4.md. -/
def Config.hardware : Config :=
  { bufCap := 64, opndCap := 8, verifyMinLen := 5, nibbleMap := .hiLoPlain }

end Sys2Proof
end

