-- ==== Sys2Proof/Syntax.lean ====
section
/-! DEFINITION. The seventeen commands of CE-CMD version 1 (spec/30_encoding.md R52,
spec/opcode_table.json), one constructor per row, with the operand values of R53. -/

namespace Sys2Proof

/-- The tag of a staged operand, spec/10_state.md R18. -/
inductive Tag where
  | int
  | bytes
  | text
  | none
deriving DecidableEq, Repr

/-- The operand selector `sel` of spec/30_encoding.md R51: 0 = OPC (command), 1 = OPP (payload). -/
inductive OperandSel where
  | opc
  | opp
deriving DecidableEq, Repr

/-- A command. Operand values are those of spec/30_encoding.md R53: `imm8` a byte, `off` an unscaled
buffer index, `len` a signed integer, `k` a bit number, `ifb`, `t`, `dp` Booleans. The ranges of
`off`, `len` and `k` are checked in WellFormed. Operands stand in the order of R62. -/
inductive Instr where
  | nop
  | rst
  | bclr
  | bpush (imm8 : Byte)
  | bpushr
  | csum (ifb : Bool) (len : Int)
  | verify (ifb t : Bool)
  | opset (sel : OperandSel) (tag : Tag)
  | oppush (sel : OperandSel) (imm8 : Byte)
  | build (dp : Bool)
  | xu8 (off : Nat)
  | xu16 (off : Nat)
  | xcenti (off : Nat)
  | xunit (off : Nat)
  | xdp (off : Nat)
  | xds (off : Nat)
  | xbit (off k : Nat)
deriving DecidableEq, Repr

end Sys2Proof
end

