-- ==== Sys2Proof/Machine/State.lean ====
section
/-! DEFINITION. The state of the block: every element of spec/10_state.md section 1, with the reset
values of R22, and the queue of host actions of the model. Plain data. -/

namespace Sys2Proof.Machine

/-- The error kinds of spec/60_exceptions.md R120 (code 0, no error, is no kind). Raising one is a
next state, not a stop. -/
inductive ErrorKind where
  | invalidInput
  | unsupportedType
  | checksumMismatch
  | windowOutOfRange
  | bufferFull
  | illegalCommand
deriving DecidableEq, Repr

/-- An operand staging register, spec/10_state.md R18: a tag and 0 to `OPND_CAP` bytes. -/
structure Operand where
  tag : Tag
  bytes : List Byte
deriving DecidableEq, Repr

/-- What the host can do to the block (spec/10_state.md R20, R21; spec/70_reset_and_hazards.md R140,
R151). -/
inductive HostAction where
  /-- A command word is accepted at the command channel (R50, R151). -/
  | command (w : Word)
  /-- A bus write of the host register space (R20). -/
  | busWrite (offset : Nat) (w : Word)
  /-- A bus read of the host register space (R20, R21). -/
  | busRead (offset : Nat)
  /-- `rst_n` is asserted and released (R140). -/
  | resetPulse
deriving DecidableEq, Repr

/-- The state of spec/10_state.md section 1. `LEN` and `E` are derived (R11, R15) and not stored. -/
structure State where
  /-- BUF, R10: index 0 is the first byte pushed. Bytes at or beyond its length do not exist. -/
  buf : List Byte
  /-- RES, R12. -/
  res : Word
  /-- ERR, R16: the code of the most recent command's error, 0 for none. -/
  err : BitVec 4
  /-- FAULTS, R17: the sticky mask, bit `c` for error code `c`. -/
  faults : Word
  /-- V, R15. -/
  v : Bool
  /-- U, R15. -/
  u : Bool
  /-- OPC, R18: the staged command argument. -/
  opc : Operand
  /-- OPP, R18: the staged payload argument. -/
  opp : Operand
  /-- The MODEL's own field: what the host will do next, the next action first (log entry 2). -/
  pending : List HostAction
deriving DecidableEq, Repr

/-- `(NONE, [])`, the operand reset value of R22. -/
def Operand.unset : Operand := { tag := .none, bytes := [] }

/-- The state after reset, spec/10_state.md R22. That nothing is queued is the model's choice (log
entry 2). -/
def State.reset : State :=
  { buf := []
    res := 0
    err := 0
    faults := 0
    v := false
    u := false
    opc := Operand.unset
    opp := Operand.unset
    pending := [] }

/-- Reasons the machine stops with a fault: none. "There is no \"double fault\" and no state in which
the block stops accepting commands" (spec/60_exceptions.md R128); every error of R120 is a next
state. -/
inductive Fault where
deriving DecidableEq, Repr

/-- Reasons the model refuses an instruction. -/
inductive Refusal where
  /-- Raised by no arm of this model: every command has its meaning. The host's interface asks for
  the constructor. Safe. -/
  | notModelled (mnemonic : String)
deriving DecidableEq, Repr

/-- What a command or a step answers. -/
abbrev Result := Host.Outcome State Fault Refusal

end Sys2Proof.Machine
end

