-- ==== Sys2Proof/Machine/Arith.lean ====
section
/-! DEFINITION. The pure functions of the block (spec/43_field_extractor.md R113 lists them all): the
checksum of spec/41_checksum_engine.md R80 to R82, the operand encoding of
spec/42_frame_builder.md R93, and the field packings of spec/43_field_extractor.md R102 to R112. All
are computed on mathematical integers and narrowed at the end. -/

namespace Sys2Proof.Machine

/-- `sum(s)` of spec/00_scope.md R7: the sum of the bytes as integers. -/
def sumBytes : List Byte → Nat
  | [] => 0
  | b :: s => b.toNat + sumBytes s

/-- `d[a..b)` of spec/00_scope.md R7; empty when `b <= a`, so also for a negative `b`. -/
def slice (d : List Byte) (a : Nat) (b : Int) : List Byte := (d.take b.toNat).drop a

/-- The checksum of a selected range, R82: sum modulo 256, invert, add 1 modulo 256. -/
def checksumOf (range : List Byte) : Byte :=
  let t := sumBytes range % 256
  BitVec.ofNat 8 ((255 - t + 1) % 256)

/-- The start `s` of the selected range, R81. -/
def rangeStart (ifb : Bool) : Nat := if ifb then 0 else 1

/-- The end `e` of the selected range, R81, for a sequence of `n` bytes. It may be negative. -/
def rangeEnd (n : Nat) (ifb : Bool) (len : Int) : Int :=
  if 0 < len then min ((rangeStart ifb : Int) + len) (n : Int)
  else if len < 0 then (n : Int) + len
  else (n : Int)

/-- The selected range `d[s..e)`, R81. -/
def selectedRange (d : List Byte) (ifb : Bool) (len : Int) : List Byte :=
  slice d (rangeStart ifb) (rangeEnd d.length ifb len)

/-- The checksum function `cks(d, ifb, L)` of R80 to R82: it fails with `InvalidInput` when the whole
of `d` has fewer than 4 bytes. -/
def cks (d : List Byte) (ifb : Bool) (len : Int) : Except ErrorKind Byte :=
  if d.length < 4 then .error .invalidInput else .ok (checksumOf (selectedRange d ifb len))

/-- `256 * hi + lo`, the big-endian 16-bit reading of spec/20_memory.md R31. -/
def be16 (hi lo : Byte) : Nat := 256 * hi.toNat + lo.toNat

/-- The unsigned integer a staged INT operand denotes, spec/10_state.md R18: the sum over `i` of
`bytes[i] * 256^(count-1-i)`. -/
def beValue : List Byte → Nat
  | [] => 0
  | b :: s => b.toNat * 256 ^ s.length + beValue s

/-- The `n`-byte big-endian form of `v`, spec/20_memory.md R31. -/
def beBytes : Nat → Nat → List Byte
  | 0, _ => []
  | n + 1, v => beBytes n (v / 256) ++ [BitVec.ofNat 8 (v % 256)]

/-- A byte string with every leading zero byte removed. -/
def stripLeadingZeros : List Byte → List Byte
  | [] => []
  | b :: s => if b = 0 then stripLeadingZeros s else b :: s

/-- The INT arm of `enc`, R93: leading zero bytes removed, or `[0x00]` when that leaves nothing. -/
def minimalInt (s : List Byte) : List Byte :=
  match stripLeadingZeros s with
  | [] => [0]
  | b :: r => b :: r

/-- `RES <- (q << 16) | r` of R104. -/
def centiResult (raw : Nat) : Word :=
  (BitVec.ofNat 32 (raw / 100) <<< 16) ||| BitVec.ofNat 32 (raw % 100)

/-- The unit index of R106: a whole-byte match. -/
def unitIndex (b : Byte) : Nat :=
  if b = 0x02 then 1 else if b = 0x04 then 2 else if b = 0x08 then 3 else 0

/-- `b[7:4]`. -/
def highNibble (b : Byte) : Nat := b.toNat / 16

/-- `b[3:0]`. -/
def lowNibble (b : Byte) : Nat := b.toNat % 16

/-- `rev4` of R108: the four bits of `x` in opposite order. -/
def rev4 (x : Nat) : Nat := 8 * (x % 2) + 4 * (x / 2 % 2) + 2 * (x / 4 % 2) + x / 8 % 2

/-- The XDP column of R108. -/
def decimalPlaces : NibbleMap → Byte → Nat
  | .hiLoPlain, b => highNibble b
  | .loHiPlain, b => lowNibble b
  | .hiPlainLoRev, b => highNibble b
  | .loPlainHiRev, b => lowNibble b

/-- The XDS column of R108. -/
def dataSign : NibbleMap → Byte → Nat
  | .hiLoPlain, b => lowNibble b
  | .loHiPlain, b => highNibble b
  | .hiPlainLoRev, b => rev4 (lowNibble b)
  | .loPlainHiRev, b => rev4 (highNibble b)

/-- The byte recovered from the two nibble results `d` (XDP) and `g` (XDS), R112. -/
def recombine : NibbleMap → Nat → Nat → Nat
  | .hiLoPlain, d, g => 16 * d + g
  | .loHiPlain, d, g => 16 * g + d
  | .hiPlainLoRev, d, g => 16 * d + rev4 g
  | .loPlainHiRev, d, g => 16 * rev4 g + d

/-- The bit of weight `2^k` of a byte, R111, as 0 or 1. -/
def bitOf (b : Byte) (k : Nat) : Nat := b.toNat / 2 ^ k % 2

end Sys2Proof.Machine
end

