-- ==== Sys2Proof/Machine/Ops.lean ====
section
/-! DEFINITION. The named operations over the state: error entry and completion
(spec/60_exceptions.md R123, R124), reset, the reads and writes of BUF that spec/00_scope.md R8
allows, and the writes of the registers. -/

namespace Sys2Proof.Machine

/-- The code of an error kind, R120. -/
def ErrorKind.code : ErrorKind → Nat
  | .invalidInput => 1
  | .unsupportedType => 2
  | .checksumMismatch => 3
  | .windowOutOfRange => 4
  | .bufferFull => 5
  | .illegalCommand => 6

/-- `1 << c`, the bit of FAULTS an error kind sets, R124. -/
def ErrorKind.faultBit (k : ErrorKind) : Word := (1 : Word) <<< k.code

/-- Error entry, R124: `ERR <- c`, `FAULTS <- FAULTS | (1 << c)` and nothing else. This is the one
exception operation of the block. There is no return beside it: "There is no return-from-error
command and nothing to restore" (R128). -/
def raise (k : ErrorKind) (s : State) : State :=
  { s with err := BitVec.ofNat 4 k.code, faults := s.faults ||| k.faultBit }

/-- Successful completion, R123: `ERR <- 0` after the command's other writes. -/
def complete (s : State) : State := { s with err := 0 }

/-- Every element takes its reset value of spec/10_state.md R22. The host's queue is no element of
the block and is kept (log entry 3). -/
def resetBlock (s : State) : State := { State.reset with pending := s.pending }

/-- LEN, spec/10_state.md R11: derived from BUF. -/
def State.len (s : State) : Nat := s.buf.length

/-- One byte of BUF; no byte exists at an index at or beyond LEN (spec/10_state.md R10). -/
def State.readByte (s : State) (i : Nat) : Option Byte := s.buf[i]?

/-- `MemRead(addr, n)` of spec/00_scope.md R8, defined only when `addr + n <= LEN`; the sum is of
integers and does not wrap (spec/20_memory.md R34). -/
def memRead (s : State) (addr n : Nat) : Option (List Byte) :=
  if addr + n ≤ s.len then some ((s.buf.drop addr).take n) else none

/-- `RES <- v`. -/
def setRes (v : Word) (s : State) : State := { s with res := v }

/-- `V <- b`. -/
def setV (b : Bool) (s : State) : State := { s with v := b }

/-- `U <- b`. -/
def setU (b : Bool) (s : State) : State := { s with u := b }

/-- `BUF <- f` (so `LEN <- |f|`) with `V <- 0`: "Every command that changes BUF clears it to 0"
(spec/10_state.md R15). -/
def replaceBuf (f : List Byte) (s : State) : State := { s with buf := f, v := false }

/-- The index an appended byte goes to: LEN (spec/20_memory.md R33). -/
def appendAddress (s : State) : Nat := s.len

/-- The append of BPUSH and BPUSHR: the capacity test `LEN < BUF_CAP` of spec/20_memory.md R35, then
`BUF <- BUF ++ [b]` with `V <- 0`. In a state whose buffer is over the capacity, which no run
reaches, R35's test is the one followed (log entry 5). -/
def appendByte (c : Config) (b : Byte) (s : State) : State :=
  if s.len < c.bufCap then complete (replaceBuf (s.buf ++ [b]) s) else raise .bufferFull s

/-- The host's queue without its first action. -/
def takeAction (s : State) : State := { s with pending := s.pending.tail }

/-- The frame buffer as addressed cells, the form of `Host.Cell`: index `i` with its byte, for
`i < LEN` (log entry 1). -/
def cellsFrom : Nat → List Byte → List Host.Cell
  | _, [] => []
  | a, b :: s => (a, b) :: cellsFrom (a + 1) s

/-- The canonical form of BUF: at most `BUF_CAP` bytes (spec/10_state.md R10). Any byte sequence of
such a length is one buffer, and equal buffers are equal data. -/
abbrev Memory.wf (c : Config) (m : List Byte) : Prop := m.length ≤ c.bufCap

end Sys2Proof.Machine
end

