-- ==== Sys2Proof/Machine/Operands.lean ====
section
/-! DEFINITION. Every operand form: the staged operands of spec/10_state.md R18 with the encoding of
spec/42_frame_builder.md R93 to R95, and the windows of spec/20_memory.md R34. -/

namespace Sys2Proof.Machine

/-- The register `sel` selects, R18. -/
def getOperand (sel : OperandSel) (s : State) : Operand :=
  match sel with
  | .opc => s.opc
  | .opp => s.opp

/-- `OP <- o` for the register `sel` selects. -/
def putOperand (sel : OperandSel) (o : Operand) (s : State) : State :=
  match sel with
  | .opc => { s with opc := o }
  | .opp => { s with opp := o }

/-- The byte sequence a staged operand enters the frame as: `enc` of R93 for INT and BYTES, nothing
for TEXT and NONE, which BUILD refuses (R94). -/
def encOperand (o : Operand) : Option (List Byte) :=
  match o.tag with
  | .int => some (minimalInt o.bytes)
  | .bytes => some o.bytes
  | .text => none
  | .none => none

/-- The payload bytes of BUILD: the one byte `0x00` when `dp = 1`, without examining OPP, else `enc`
of OPP (R92, R95). -/
def payloadBytes (dp : Bool) (s : State) : Option (List Byte) :=
  if dp then some [0] else encOperand s.opp

/-- The 1-byte window at `off`, or nothing when `off + 1 > LEN` (R34). -/
def window1 (s : State) (off : Nat) : Option Byte :=
  match memRead s off 1 with
  | some [b] => some b
  | _ => none

/-- The 2-byte window at `off`, or nothing when `off + 2 > LEN` (R34). -/
def window2 (s : State) (off : Nat) : Option (Byte × Byte) :=
  match memRead s off 2 with
  | some [hi, lo] => some (hi, lo)
  | _ => none

end Sys2Proof.Machine
end

