-- ==== Sys2Proof/Machine/Flags.lean ====
section
/-! DEFINITION. The values the three flags of spec/10_state.md R15 take: V from VERIFY's comparison
(spec/41_checksum_engine.md R86), U from XUNIT's index (spec/43_field_extractor.md R106), E from ERR. -/

namespace Sys2Proof.Machine

/-- The comparison of R86: the checksum of `BUF[s..LEN-1)` against `BUF[LEN-1]`. An empty buffer has
no last byte and does not match; VERIFY never compares one (R85). -/
def verifyMatch (d : List Byte) (ifb : Bool) : Bool :=
  match d.getLast? with
  | some last => decide (checksumOf (slice d (rangeStart ifb) ((d.length : Int) - 1)) = last)
  | none => false

/-- U of R106: 1 when the index is not 0. -/
def unitRecognised (b : Byte) : Bool := decide (unitIndex b ≠ 0)

/-- E of R15: 1 exactly when `ERR != 0`; derived, not stored. -/
def State.e (s : State) : Bool := decide (s.err ≠ 0)

end Sys2Proof.Machine
end

