-- ==== Sys2Proof/Machine/Buffer.lean ====
section
/-! DEFINITION. The buffer commands BCLR, BPUSH, BPUSHR, spec/40_control_and_buffer.md R72 to R74. A
command that reads a parameter is written over the parameters, and the hardware's is the instance at
`Config.hardware`. -/

namespace Sys2Proof.Machine

/-- BCLR, R72. -/
def execBclr (s : State) : Result := .next (complete (replaceBuf [] s))

/-- BPUSH, R73, for the parameters `c`. -/
def execBpushAt (c : Config) (imm8 : Byte) (s : State) : Result := .next (appendByte c imm8 s)

/-- BPUSH, R73. -/
def execBpush (imm8 : Byte) (s : State) : Result := execBpushAt Config.hardware imm8 s

/-- BPUSHR, R74, for the parameters `c`: the byte is `RES[7:0]`. -/
def execBpushrAt (c : Config) (s : State) : Result :=
  .next (appendByte c (BitVec.ofNat 8 s.res.toNat) s)

/-- BPUSHR, R74. -/
def execBpushr (s : State) : Result := execBpushrAt Config.hardware s

end Sys2Proof.Machine
end

