-- ==== Sys2Proof/Machine/Checksum.lean ====
section
/-! DEFINITION. The checksum engine commands CSUM and VERIFY, spec/41_checksum_engine.md R83, R85 to
R87. -/

namespace Sys2Proof.Machine

/-- CSUM, R83: `RES <- zext_32(cks(BUF, ifb, len))`, or the error `cks` fails with. -/
def execCsum (ifb : Bool) (len : Int) (s : State) : Result :=
  match cks s.buf ifb len with
  | .ok k => .next (complete (setRes (k.setWidth 32) s))
  | .error e => .next (raise e s)

/-- VERIFY, R85 to R87, for the parameters `c`: the length guard, then the comparison. `V` is
written in every outcome. -/
def execVerifyAt (c : Config) (ifb t : Bool) (s : State) : Result :=
  if s.len < c.verifyMinLen then .next (raise .invalidInput (setV false s))
  else
    let m := verifyMatch s.buf ifb
    if !m && t then .next (raise .checksumMismatch (setV m s))
    else .next (complete (setRes (BitVec.ofNat 32 m.toNat) (setV m s)))

/-- VERIFY, R86. -/
def execVerify (ifb t : Bool) (s : State) : Result := execVerifyAt Config.hardware ifb t s

end Sys2Proof.Machine
end

