-- ==== Sys2Proof/Machine/Control.lean ====
section
/-! DEFINITION. The control commands NOP and RST, spec/40_control_and_buffer.md R70, R71. -/

namespace Sys2Proof.Machine

/-- NOP, R70: nothing but `ERR <- 0`. -/
def execNop (s : State) : Result := .next (complete s)

/-- RST, R71: every state element takes its reset value, ERR among them. -/
def execRst (s : State) : Result := .next (resetBlock s)

end Sys2Proof.Machine
end

