-- ==== Sys2Proof/Machine/Extract.lean ====
section
/-! DEFINITION. The field extractor commands XU8, XU16, XCENTI, XUNIT, XDP, XDS, XBIT,
spec/43_field_extractor.md R100 to R111. -/

namespace Sys2Proof.Machine

/-- What the 1-byte extractors share, R100: the bound check, the window, `RES <- f(window)`. -/
def extractByte (off : Nat) (f : Byte → Word) (s : State) : State :=
  match window1 s off with
  | some b => complete (setRes (f b) s)
  | none => raise .windowOutOfRange s

/-- What the 2-byte extractors share, R100, on the big-endian value of the window. -/
def extractBe16 (off : Nat) (f : Nat → Word) (s : State) : State :=
  match window2 s off with
  | some (hi, lo) => complete (setRes (f (be16 hi lo)) s)
  | none => raise .windowOutOfRange s

/-- XU8, R101. -/
def execXu8 (off : Nat) (s : State) : Result := .next (extractByte off (fun b => b.setWidth 32) s)

/-- XU16, R102. -/
def execXu16 (off : Nat) (s : State) : Result :=
  .next (extractBe16 off (fun raw => BitVec.ofNat 32 raw) s)

/-- XCENTI, R104. -/
def execXcenti (off : Nat) (s : State) : Result := .next (extractBe16 off centiResult s)

/-- XUNIT, R106: RES and U are written; an unrecognised byte is not an error. -/
def execXunit (off : Nat) (s : State) : Result :=
  match window1 s off with
  | some b =>
    .next (complete (setU (unitRecognised b) (setRes (BitVec.ofNat 32 (unitIndex b)) s)))
  | none => .next (raise .windowOutOfRange s)

/-- XDP, R109, for the parameters `c`. -/
def execXdpAt (c : Config) (off : Nat) (s : State) : Result :=
  .next (extractByte off (fun b => BitVec.ofNat 32 (decimalPlaces c.nibbleMap b)) s)

/-- XDP, R109. Its numeric value rests on the default `NIBBLE_MAP` (log entry 4). -/
def execXdp (off : Nat) (s : State) : Result := execXdpAt Config.hardware off s

/-- XDS, R110, for the parameters `c`. -/
def execXdsAt (c : Config) (off : Nat) (s : State) : Result :=
  .next (extractByte off (fun b => BitVec.ofNat 32 (dataSign c.nibbleMap b)) s)

/-- XDS, R110. Its numeric value rests on the default `NIBBLE_MAP` (log entry 4). -/
def execXds (off : Nat) (s : State) : Result := execXdsAt Config.hardware off s

/-- XBIT, R111. -/
def execXbit (off k : Nat) (s : State) : Result :=
  .next (extractByte off (fun b => BitVec.ofNat 32 (bitOf b k)) s)

end Sys2Proof.Machine
end

