-- ==== Sys2Proof/Machine/Frame.lean ====
section
/-! DEFINITION. The frame builder commands OPSET, OPPUSH, BUILD, spec/42_frame_builder.md R90 to
R97. -/

namespace Sys2Proof.Machine

/-- OPSET, R90: `OP <- (tag, [])`. -/
def execOpset (sel : OperandSel) (tag : Tag) (s : State) : Result :=
  .next (complete (putOperand sel { tag := tag, bytes := [] } s))

/-- OPPUSH, R91, for the parameters `c`: the capacity test of spec/20_memory.md R35, then the
append. The tag is not looked at. -/
def execOppushAt (c : Config) (sel : OperandSel) (imm8 : Byte) (s : State) : Result :=
  let o := getOperand sel s
  if o.bytes.length < c.opndCap then
    .next (complete (putOperand sel { o with bytes := o.bytes ++ [imm8] } s))
  else .next (raise .bufferFull s)

/-- OPPUSH, R91. -/
def execOppush (sel : OperandSel) (imm8 : Byte) (s : State) : Result :=
  execOppushAt Config.hardware sel imm8 s

/-- The frame `F` of R92 before its checksum: header, command, payload, trailer. -/
def frameBody (command payload : List Byte) : List Byte :=
  [0xFF, 0x01] ++ command ++ payload ++ [0x00, 0x00, 0x00, 0x00]

/-- BUILD, R92 to R96. Both type checks come before any write (R94). OPC and OPP are only read. -/
def execBuild (dp : Bool) (s : State) : Result :=
  match encOperand s.opc, payloadBytes dp s with
  | some command, some payload =>
    let f := frameBody command payload
    match cks f false 0 with
    | .ok k => .next (complete (setRes (k.setWidth 32) (replaceBuf (f ++ [k]) s)))
    | .error e => .next (raise e s)
  | _, _ => .next (raise .unsupportedType s)

end Sys2Proof.Machine
end

