-- ==== Sys2Proof/Machine/Dispatch.lean ====
section
/-! DEFINITION. One arm per command, each a direct call of its meaning. -/

namespace Sys2Proof.Machine

def exec (i : Instr) (s : State) : Host.Outcome State Fault Refusal :=
  match i with
  | .nop => Sys2Proof.Machine.execNop s
  | .rst => Sys2Proof.Machine.execRst s
  | .bclr => Sys2Proof.Machine.execBclr s
  | .bpush imm8 => Sys2Proof.Machine.execBpush imm8 s
  | .bpushr => Sys2Proof.Machine.execBpushr s
  | .csum ifb len => Sys2Proof.Machine.execCsum ifb len s
  | .verify ifb t => Sys2Proof.Machine.execVerify ifb t s
  | .opset sel tag => Sys2Proof.Machine.execOpset sel tag s
  | .oppush sel imm8 => Sys2Proof.Machine.execOppush sel imm8 s
  | .build dp => Sys2Proof.Machine.execBuild dp s
  | .xu8 off => Sys2Proof.Machine.execXu8 off s
  | .xu16 off => Sys2Proof.Machine.execXu16 off s
  | .xcenti off => Sys2Proof.Machine.execXcenti off s
  | .xunit off => Sys2Proof.Machine.execXunit off s
  | .xdp off => Sys2Proof.Machine.execXdp off s
  | .xds off => Sys2Proof.Machine.execXds off s
  | .xbit off k => Sys2Proof.Machine.execXbit off k s

end Sys2Proof.Machine
end

