-- ==== Sys2Proof/WellFormed.lean ====
section
/-! DEFINITION. Which command terms have a command word: the operand ranges of
spec/30_encoding.md R53. -/

namespace Sys2Proof

/-- `off` is "unsigned, 0 to 255" (R53). -/
def offsetOk (off : Nat) : Bool := decide (off < 256)

/-- `len` is "a signed integer from -32768 to 32767" (R53). -/
def lengthOk (len : Int) : Bool := decide (-32768 ≤ len ∧ len ≤ 32767)

/-- `k` is "unsigned, 0 to 7" (R53). -/
def bitNumberOk (k : Nat) : Bool := decide (k < 8)

/-- The operand ranges of R53, command by command. Fields not named are in range by their type. -/
def Instr.wf : Instr → Bool
  | .nop => true
  | .rst => true
  | .bclr => true
  | .bpush _ => true
  | .bpushr => true
  | .csum _ len => lengthOk len
  | .verify _ _ => true
  | .opset _ _ => true
  | .oppush _ _ => true
  | .build _ => true
  | .xu8 off => offsetOk off
  | .xu16 off => offsetOk off
  | .xcenti off => offsetOk off
  | .xunit off => offsetOk off
  | .xdp off => offsetOk off
  | .xds off => offsetOk off
  | .xbit off k => offsetOk off && bitNumberOk k

end Sys2Proof
end

