-- ==== Sys2Proof/Decode.lean ====
section
/-! DEFINITION. Command words: the decoder of spec/30_encoding.md R50 to R53 with the refusals of
R58 to R60, the encoder from the same format tables, and the opcode map of R52 as data. -/

namespace Sys2Proof

/-- Why a word is no command (R58). Executing such a word raises `IllegalCommand`. -/
inductive IllegalWord where
  /-- The opcode is in no row of R52. -/
  | unassignedOpcode (opcode : Nat)
  /-- The opcode is assigned and a reserved bit of its format is 1 (R59). -/
  | reservedBitSet (opcode : Nat)
deriving DecidableEq, Repr

/-- `w[hi:lo]` of spec/00_scope.md R6, as an unsigned integer. -/
def bits (w : Word) (hi lo : Nat) : Nat := w.toNat / 2 ^ lo % 2 ^ (hi + 1 - lo)

/-- A one-bit field as a Boolean. -/
def flagAt (w : Word) (i : Nat) : Bool := decide (bits w i i = 1)

/-- `sext_16` of spec/00_scope.md R6. -/
def sext16 (v : Nat) : Int := if v < 32768 then (v : Int) else (v : Int) - 65536

/-- The tag values of spec/10_state.md R18. -/
def Tag.code : Tag → Nat
  | .int => 0
  | .bytes => 1
  | .text => 2
  | .none => 3

/-- The tag a 2-bit field denotes; the field has no other value. -/
def Tag.ofCode (v : Nat) : Tag :=
  if v = 0 then .int else if v = 1 then .bytes else if v = 2 then .text else .none

/-- `sel`: 0 = OPC, 1 = OPP (R51, format T and S). -/
def OperandSel.code : OperandSel → Nat
  | .opc => 0
  | .opp => 1

/-- The register a 1-bit selector denotes. -/
def OperandSel.ofCode (v : Nat) : OperandSel := if v = 0 then .opc else .opp

/-- The reserved-bit check of R59: the decoded command when `reserved` reads 0, else a refusal by
name. -/
def checkReserved (opcode reserved : Nat) (i : Instr) : Except IllegalWord Instr :=
  if reserved = 0 then .ok i else .error (.reservedBitSet opcode)

/-- The command a word is, or why it is none (R50: opcode, format, reserved bits, fields). Total on
the 2^32 words (R60). -/
def decode (w : Word) : Except IllegalWord Instr :=
  match bits w 31 24 with
  | 0x00 => checkReserved 0x00 (bits w 23 0) .nop
  | 0x01 => checkReserved 0x01 (bits w 23 0) .rst
  | 0x10 => checkReserved 0x10 (bits w 23 0) .bclr
  | 0x11 => checkReserved 0x11 (bits w 23 8) (.bpush (BitVec.ofNat 8 (bits w 7 0)))
  | 0x12 => checkReserved 0x12 (bits w 23 0) .bpushr
  | 0x20 => checkReserved 0x20 (bits w 23 17) (.csum (flagAt w 16) (sext16 (bits w 15 0)))
  | 0x21 => checkReserved 0x21 (bits w 23 18 + bits w 15 0) (.verify (flagAt w 16) (flagAt w 17))
  | 0x30 => checkReserved 0x30 (bits w 23 9 + bits w 7 2)
      (.opset (OperandSel.ofCode (bits w 8 8)) (Tag.ofCode (bits w 1 0)))
  | 0x31 => checkReserved 0x31 (bits w 23 9)
      (.oppush (OperandSel.ofCode (bits w 8 8)) (BitVec.ofNat 8 (bits w 7 0)))
  | 0x32 => checkReserved 0x32 (bits w 23 1) (.build (flagAt w 0))
  | 0x40 => checkReserved 0x40 (bits w 23 8) (.xu8 (bits w 7 0))
  | 0x41 => checkReserved 0x41 (bits w 23 8) (.xu16 (bits w 7 0))
  | 0x42 => checkReserved 0x42 (bits w 23 8) (.xcenti (bits w 7 0))
  | 0x43 => checkReserved 0x43 (bits w 23 8) (.xunit (bits w 7 0))
  | 0x44 => checkReserved 0x44 (bits w 23 8) (.xdp (bits w 7 0))
  | 0x45 => checkReserved 0x45 (bits w 23 8) (.xds (bits w 7 0))
  | 0x46 => checkReserved 0x46 (bits w 23 11) (.xbit (bits w 7 0) (bits w 10 8))
  | opcode => .error (.unassignedOpcode opcode)

/-- A word with the given opcode in bits 31 to 24 and the given integer in bits 23 to 0. -/
def mkWord (opcode operands : Nat) : Word := BitVec.ofNat 32 (opcode * 2 ^ 24 + operands)

/-- The word of a command: the "Encoding" line of each command's rule, from the format tables of
R51. `len mod 65536` is R83's. -/
def encode : Instr → Word
  | .nop => mkWord 0x00 0
  | .rst => mkWord 0x01 0
  | .bclr => mkWord 0x10 0
  | .bpush imm8 => mkWord 0x11 imm8.toNat
  | .bpushr => mkWord 0x12 0
  | .csum ifb len => mkWord 0x20 (ifb.toNat * 2 ^ 16 + (len % 65536).toNat)
  | .verify ifb t => mkWord 0x21 (t.toNat * 2 ^ 17 + ifb.toNat * 2 ^ 16)
  | .opset sel tag => mkWord 0x30 (sel.code * 2 ^ 8 + tag.code)
  | .oppush sel imm8 => mkWord 0x31 (sel.code * 2 ^ 8 + imm8.toNat)
  | .build dp => mkWord 0x32 dp.toNat
  | .xu8 off => mkWord 0x40 off
  | .xu16 off => mkWord 0x41 off
  | .xcenti off => mkWord 0x42 off
  | .xunit off => mkWord 0x43 off
  | .xdp off => mkWord 0x44 off
  | .xds off => mkWord 0x45 off
  | .xbit off k => mkWord 0x46 (k * 2 ^ 8 + off)

/-- The mnemonics of R52. -/
inductive Mnemonic where
  | NOP | RST | BCLR | BPUSH | BPUSHR | CSUM | VERIFY | OPSET | OPPUSH | BUILD
  | XU8 | XU16 | XCENTI | XUNIT | XDP | XDS | XBIT
deriving DecidableEq, Repr

/-- The mnemonic of a command. -/
def Instr.mnemonic : Instr → Mnemonic
  | .nop => .NOP
  | .rst => .RST
  | .bclr => .BCLR
  | .bpush _ => .BPUSH
  | .bpushr => .BPUSHR
  | .csum _ _ => .CSUM
  | .verify _ _ => .VERIFY
  | .opset _ _ => .OPSET
  | .oppush _ _ => .OPPUSH
  | .build _ => .BUILD
  | .xu8 _ => .XU8
  | .xu16 _ => .XU16
  | .xcenti _ => .XCENTI
  | .xunit _ => .XUNIT
  | .xdp _ => .XDP
  | .xds _ => .XDS
  | .xbit _ _ => .XBIT

/-- The `match` column of R52. The decoder does not use it: that the two agree is a claim. -/
def Mnemonic.pattern : Mnemonic → Word
  | .NOP => 0x00000000
  | .RST => 0x01000000
  | .BCLR => 0x10000000
  | .BPUSH => 0x11000000
  | .BPUSHR => 0x12000000
  | .CSUM => 0x20000000
  | .VERIFY => 0x21000000
  | .OPSET => 0x30000000
  | .OPPUSH => 0x31000000
  | .BUILD => 0x32000000
  | .XU8 => 0x40000000
  | .XU16 => 0x41000000
  | .XCENTI => 0x42000000
  | .XUNIT => 0x43000000
  | .XDP => 0x44000000
  | .XDS => 0x45000000
  | .XBIT => 0x46000000

/-- The `mask` column of R52. -/
def Mnemonic.mask : Mnemonic → Word
  | .NOP => 0xFFFFFFFF
  | .RST => 0xFFFFFFFF
  | .BCLR => 0xFFFFFFFF
  | .BPUSH => 0xFFFFFF00
  | .BPUSHR => 0xFFFFFFFF
  | .CSUM => 0xFFFE0000
  | .VERIFY => 0xFFFCFFFF
  | .OPSET => 0xFFFFFEFC
  | .OPPUSH => 0xFFFFFE00
  | .BUILD => 0xFFFFFFFE
  | .XU8 => 0xFFFFFF00
  | .XU16 => 0xFFFFFF00
  | .XCENTI => 0xFFFFFF00
  | .XUNIT => 0xFFFFFF00
  | .XDP => 0xFFFFFF00
  | .XDS => 0xFFFFFF00
  | .XBIT => 0xFFFFF800

/-- A word matches a row of the opcode map: `w & mask = match` (R52). -/
abbrev Mnemonic.Matches (m : Mnemonic) (w : Word) : Prop := w &&& m.mask = m.pattern

/-- The word of an opcode-table row whose `nbits` bits are `w`. A command word is one 32-bit value
and has no byte order (spec/20_memory.md R31), so the number is the word. -/
def tableWord (nbits w : Nat) : Word := BitVec.ofNat 32 (w % 2 ^ nbits)

/-- What the decoder reads from an opcode-table row's word. -/
def decodeTableWord (nbits w : Nat) : Option Instr :=
  match decode (tableWord nbits w) with
  | .ok i => some i
  | .error _ => none

end Sys2Proof
end

