-- ==== Sys2Proof/Machine/HostView.lean ====
section
/-! DEFINITION. What the host reads: the register views of spec/10_state.md R19, the address map of
R20, and two readings the spec gives the host of a result (spec/43_field_extractor.md R105, R106). -/

namespace Sys2Proof.Machine

/-- STATUS, R19: E, V, U in bits 0, 1, 2. -/
def statusView (s : State) : Word :=
  BitVec.ofNat 32 (s.e.toNat + 2 * s.v.toNat + 4 * s.u.toNat)

/-- ERR, R19. -/
def errView (s : State) : Word := s.err.setWidth 32

/-- LEN, R19: bits 7 to 0. LEN is at most 255 in every state a run reaches (log entry 7). -/
def lenView (s : State) : Word := BitVec.ofNat 32 (s.len % 256)

/-- OPCST and OPPST, R19: TAG in bits 1 to 0, COUNT in bits 15 to 8. -/
def operandView (o : Operand) : Word :=
  BitVec.ofNat 32 (o.tag.code + 2 ^ 8 * (o.bytes.length % 256))

/-- BUFWIN[i], R20: `BUF[i]` in bits 7 to 0 when `i < LEN`, and 0 when `i >= LEN`; the 8-bit read is
zero-extended (log entry 7). -/
def bufWindowView (s : State) (i : Nat) : Word :=
  match s.readByte i with
  | some b => b.setWidth 32
  | none => 0

/-- A host read at a byte offset from the block's base, R20. CMD reads 0, and so does any offset not
in the table. -/
def hostRead (s : State) (offset : Nat) : Word :=
  if offset = 0x004 then statusView s
  else if offset = 0x008 then errView s
  else if offset = 0x00C then s.faults
  else if offset = 0x010 then s.res
  else if offset = 0x014 then lenView s
  else if offset = 0x018 then operandView s.opc
  else if offset = 0x01C then operandView s.opp
  else if 0x100 ≤ offset ∧ offset < 0x100 + 255 then bufWindowView s (offset - 0x100)
  else 0

/-- The rational number an XCENTI result denotes, R105: `q + r / 100` with `RES[31:16] = q` and
`RES[15:0] = r`. The block computes no floating point. -/
def centiValue (res : Word) : Rat :=
  ((bits res 31 16 : Nat) : Rat) + ((bits res 15 0 : Nat) : Rat) / 100

/-- The unit pair an XUNIT index denotes, the table of R106; the strings are the host's to attach. -/
def unitPair (res : Word) : Option (String × String) :=
  if res = 1 then some ("ppm", "mg/m³")
  else if res = 2 then some ("ppb", "µg/m³")
  else if res = 3 then some ("10g/m³", "%")
  else none

end Sys2Proof.Machine
end

