-- ==== Sys2Proof/Machine/Present.lean ====
section
/-! DEFINITION. One command word on a state, the `step : State x u32 -> State` of spec/00_scope.md
R9, a run of words, and the other host actions of spec/10_state.md R20, R21 and
spec/70_reset_and_hazards.md R140. -/

namespace Sys2Proof.Machine

/-- Executes one command word: the decoded command, or `IllegalCommand` for a word that is none
(spec/30_encoding.md R58). Decoding comes first (spec/60_exceptions.md R125). -/
def presentWord (w : Word) (s : State) : Result :=
  match decode w with
  | .ok i => exec i s
  | .error _ => .next (raise .illegalCommand s)

/-- A run: the left fold over a list of command words, R9. -/
def runWords : List Word → State → Result
  | [], s => .next s
  | w :: ws, s =>
    match presentWord w s with
    | .next t => runWords ws t
    | .fault f => .fault f
    | .refused r => .refused r

/-- A run of commands, for the expansions of spec/30_encoding.md R63. -/
def runInstrs : List Instr → State → Result
  | [], s => .next s
  | i :: is, s =>
    match exec i s with
    | .next t => runInstrs is t
    | .fault f => .fault f
    | .refused r => .refused r

/-- The offset of CMD in the host address map, R20. -/
def cmdOffset : Nat := 0x000

/-- One host action. A write of CMD presents a command word and a write elsewhere is ignored (R20);
a read has no side effect (R21); `rst_n` gives the reset state (R140). -/
def hostAct (a : HostAction) (s : State) : Result :=
  match a with
  | .command w => presentWord w s
  | .busWrite offset w => if offset = cmdOffset then presentWord w s else .next s
  | .busRead _ => .next s
  | .resetPulse => .next (resetBlock s)

/-- What the machine does next: the first queued host action, or nothing when none is queued ("with
no command presented the state does not change", R9). -/
def serveHost (s : State) : Result :=
  match s.pending with
  | [] => .next s
  | a :: _ => hostAct a (takeAction s)

/-- `s` with a command word put before everything the host has queued. -/
def queueWord (w : Word) (s : State) : State := { s with pending := .command w :: s.pending }

end Sys2Proof.Machine
end

