-- ==== Sys2Proof/Machine/Step.lean ====
section
/-! DEFINITION. One step: the first action of the host's queue (log entry 2). -/

namespace Sys2Proof.Machine

/-- One step of the machine. -/
def step (s : State) : Host.Outcome State Fault Refusal := serveHost s

/-- `s` with an opcode-table row's word presented next: the block does not fetch (spec/10_state.md
R14), so the host queues the word and the very next step executes it (log entry 2). -/
def State.withFetchWord (s : State) (nbits w : Nat) : State := queueWord (tableWord nbits w) s

end Sys2Proof.Machine
end

