-- ==== Sys2Proof/Machine/Pseudo.lean ====
section
/-! DEFINITION. The pseudo-instructions of spec/30_encoding.md R63 and their expansions. They have no
encoding of their own. -/

namespace Sys2Proof.Machine

/-- The nine pseudo-instructions of R63. -/
inductive Pseudo where
  | xrange (off : Nat)
  | xgas (off : Nat)
  | xtemp (off : Nat)
  | xhum (off : Nat)
  | loadf (bytes : List Byte)
  | opi (sel : OperandSel) (v : Nat)
  | opb (sel : OperandSel) (bytes : List Byte)
  | csapp (ifb : Bool)
  | buildc (v : Nat)
deriving DecidableEq, Repr

/-- The minimal-length big-endian form of `v < 256^n`, most significant byte first; one zero byte for
`v = 0`. -/
def minimalBytes (n v : Nat) : List Byte := minimalInt (beBytes n v)

/-- The expansion of `OPI sel, v` for operand registers of `n` bytes. -/
def expandOpi (n : Nat) (sel : OperandSel) (v : Nat) : List Instr :=
  .opset sel .int :: (minimalBytes n v).map (Instr.oppush sel)

/-- The commands a pseudo-instruction expands to, R63, for the parameters `c`. -/
def Pseudo.expand (c : Config) : Pseudo → List Instr
  | .xrange off => [.xu16 off]
  | .xgas off => [.xu16 off]
  | .xtemp off => [.xcenti off]
  | .xhum off => [.xcenti off]
  | .loadf bytes => .bclr :: bytes.map Instr.bpush
  | .opi sel v => expandOpi c.opndCap sel v
  | .opb sel bytes => .opset sel .bytes :: bytes.map (Instr.oppush sel)
  | .csapp ifb => [.csum ifb 0, .bpushr]
  | .buildc v => expandOpi c.opndCap .opc v ++ [.build true]

/-- The operands R63 admits: `v` below `256^OPND_CAP`, 0 to `OPND_CAP` bytes for OPB, at least one
byte for LOADF, an offset of 8 bits. -/
def Pseudo.wf (c : Config) : Pseudo → Bool
  | .xrange off => decide (off < 256)
  | .xgas off => decide (off < 256)
  | .xtemp off => decide (off < 256)
  | .xhum off => decide (off < 256)
  | .loadf bytes => decide (bytes ≠ [])
  | .opi _ v => decide (v < 256 ^ c.opndCap)
  | .opb _ bytes => decide (bytes.length ≤ c.opndCap)
  | .csapp _ => true
  | .buildc v => decide (v < 256 ^ c.opndCap)

end Sys2Proof.Machine
end

