-- ==== Sys2Proof/Machine/Assembler.lean ====
section
/-! DEFINITION. The assembler syntax of spec/30_encoding.md R62, with the pseudo-instructions of R63:
one line of characters to the commands it stands for. It is notation for the host's words and no part
of the machine. What R62 and R63 leave open of it, and where spec/95_test_vectors.md writes a line in
another form than they give, is the model's choice (log entry 11). -/

namespace Sys2Proof.Machine

/-- The part of a line before its comment: "A comment runs from `;` to the end of the line". A remark
in parentheses, which spec/95_test_vectors.md writes before some comments and R62 does not mention,
ends the line too (DESIGN CHOICE, log entry 11). -/
def beforeComment : List Char → List Char
  | [] => []
  | ch :: cs => if ch = ';' ∨ ch = '(' then [] else ch :: beforeComment cs

/-- White space between the parts of a line. -/
def isBlank (ch : Char) : Bool := decide (ch = ' ') || decide (ch = '\t')

/-- A text without its leading blanks. -/
def skipBlanks : List Char → List Char
  | [] => []
  | ch :: cs => if isBlank ch then skipBlanks cs else ch :: cs

/-- A text without blanks at either end. -/
def trimBlanks (cs : List Char) : List Char := (skipBlanks (skipBlanks cs).reverse).reverse

/-- The characters before the first blank, and the rest. -/
def firstWord : List Char → List Char × List Char
  | [] => ([], [])
  | ch :: cs => if isBlank ch then ([], ch :: cs) else (ch :: (firstWord cs).1, (firstWord cs).2)

/-- The operands of a line, "separated by commas". -/
def splitCommas : List Char → List (List Char)
  | [] => [[]]
  | ch :: cs =>
    match splitCommas cs with
    | [] => [[ch]]
    | op :: ops => if ch = ',' then [] :: op :: ops else (ch :: op) :: ops

/-- The parts of a text between its blanks, empty ones among them. -/
def splitBlanks : List Char → List (List Char)
  | [] => [[]]
  | ch :: cs =>
    match splitBlanks cs with
    | [] => [[ch]]
    | part :: parts => if isBlank ch then [] :: part :: parts else (ch :: part) :: parts

/-- The words of a text that blanks separate. -/
def blankWords (cs : List Char) : List (List Char) := (splitBlanks cs).filter (fun p => p ≠ [])

/-- The value of one digit character. -/
def digitValue (ch : Char) : Option Nat :=
  if 48 ≤ ch.toNat ∧ ch.toNat ≤ 57 then some (ch.toNat - 48)
  else if 65 ≤ ch.toNat ∧ ch.toNat ≤ 70 then some (ch.toNat - 55)
  else if 97 ≤ ch.toNat ∧ ch.toNat ≤ 102 then some (ch.toNat - 87)
  else none

/-- Digits in a base, onto a value already read. -/
def readDigits (base : Nat) : Nat → List Char → Option Nat
  | acc, [] => some acc
  | acc, ch :: cs =>
    match digitValue ch with
    | some d => if d < base then readDigits base (acc * base + d) cs else none
    | none => none

/-- "Numbers are decimal, or hexadecimal with the prefix `0x`". -/
def readNat : List Char → Option Nat
  | [] => none
  | '0' :: 'x' :: ch :: cs => readDigits 16 0 (ch :: cs)
  | ch :: cs => readDigits 10 0 (ch :: cs)

/-- "`len` may be negative". -/
def readInt : List Char → Option Int
  | '-' :: cs => (readNat cs).map (fun n => -(n : Int))
  | cs => (readNat cs).map (fun n => (n : Int))

/-- A number below a bound. -/
def readBelow (bound : Nat) (cs : List Char) : Option Nat :=
  match readNat cs with
  | some n => if n < bound then some n else none
  | none => none

/-- A byte operand. -/
def readByteOperand (cs : List Char) : Option Byte := (readBelow 256 cs).map (BitVec.ofNat 8)

/-- A one-bit operand. -/
def readFlag (cs : List Char) : Option Bool := (readBelow 2 cs).map (fun n => decide (n = 1))

/-- "`sel` as `C` (0) or `P` (1)", or the number. -/
def readSel (cs : List Char) : Option OperandSel :=
  if cs = ['C'] then some .opc
  else if cs = ['P'] then some .opp
  else (readBelow 2 cs).map OperandSel.ofCode

/-- "`tag` may be written by name (`INT`, `BYTES`, `TEXT`, `NONE`)", or the number. -/
def readTag (cs : List Char) : Option Tag :=
  if cs = ['I', 'N', 'T'] then some .int
  else if cs = ['B', 'Y', 'T', 'E', 'S'] then some .bytes
  else if cs = ['T', 'E', 'X', 'T'] then some .text
  else if cs = ['N', 'O', 'N', 'E'] then some .none
  else (readBelow 4 cs).map Tag.ofCode

/-- A list of byte operands. -/
def readBytes : List (List Char) → Option (List Byte)
  | [] => some []
  | op :: ops =>
    match readByteOperand op, readBytes ops with
    | some b, some bs => some (b :: bs)
    | _, _ => none

/-- A byte written as a bare hexadecimal pair, spec/95_test_vectors.md's "bytes in hexadecimal
pairs". -/
def readHexPair : List Char → Option Byte
  | [hi, lo] => (readDigits 16 0 [hi, lo]).map (BitVec.ofNat 8)
  | _ => none

/-- A list of bare hexadecimal pairs. -/
def readHexPairs : List (List Char) → Option (List Byte)
  | [] => some []
  | p :: ps =>
    match readHexPair p, readHexPairs ps with
    | some b, some bs => some (b :: bs)
    | _, _ => none

/-- The bytes of LOADF. R62 and R63 put commas between the operands; the programs of
spec/95_test_vectors.md write bare hexadecimal pairs with blanks between them. Both forms are read: a
text of two or more words without a comma as hexadecimal pairs, any other by R62, so that a single
operand is a number of R62 (DESIGN CHOICE, log entry 11). -/
def readLoadf (ops : List (List Char)) : Option (List Byte) :=
  match ops with
  | [text] =>
    if 2 ≤ (blankWords text).length then readHexPairs (blankWords text) else readBytes [text]
  | _ => readBytes ops

/-- An X command on its `off`. -/
def readOffset (cmd : Nat → Instr) (ops : List (List Char)) : Option Instr :=
  match ops with
  | [off] => (readBelow 256 off).map cmd
  | _ => none

/-- A command from its mnemonic and operands, in the order of R62. -/
def readCommand (name : List Char) (ops : List (List Char)) : Option Instr :=
  if name = ['N', 'O', 'P'] then (if ops = [] then some .nop else none)
  else if name = ['R', 'S', 'T'] then (if ops = [] then some .rst else none)
  else if name = ['B', 'C', 'L', 'R'] then (if ops = [] then some .bclr else none)
  else if name = ['B', 'P', 'U', 'S', 'H'] then
    (match ops with
    | [b] => (readByteOperand b).map Instr.bpush
    | _ => none)
  else if name = ['B', 'P', 'U', 'S', 'H', 'R'] then (if ops = [] then some .bpushr else none)
  else if name = ['C', 'S', 'U', 'M'] then
    (match ops with
    | [ifb, len] =>
      (match readFlag ifb, readInt len with
      | some i, some l => if lengthOk l then some (.csum i l) else none
      | _, _ => none)
    | _ => none)
  else if name = ['V', 'E', 'R', 'I', 'F', 'Y'] then
    (match ops with
    | [ifb, t] =>
      (match readFlag ifb, readFlag t with
      | some i, some u => some (.verify i u)
      | _, _ => none)
    | _ => none)
  else if name = ['O', 'P', 'S', 'E', 'T'] then
    (match ops with
    | [sel, tag] =>
      (match readSel sel, readTag tag with
      | some a, some g => some (.opset a g)
      | _, _ => none)
    | _ => none)
  else if name = ['O', 'P', 'P', 'U', 'S', 'H'] then
    (match ops with
    | [sel, b] =>
      (match readSel sel, readByteOperand b with
      | some a, some x => some (.oppush a x)
      | _, _ => none)
    | _ => none)
  else if name = ['B', 'U', 'I', 'L', 'D'] then
    (match ops with
    | [dp] => (readFlag dp).map Instr.build
    | _ => none)
  else if name = ['X', 'U', '8'] then readOffset Instr.xu8 ops
  else if name = ['X', 'U', '1', '6'] then readOffset Instr.xu16 ops
  else if name = ['X', 'C', 'E', 'N', 'T', 'I'] then readOffset Instr.xcenti ops
  else if name = ['X', 'U', 'N', 'I', 'T'] then readOffset Instr.xunit ops
  else if name = ['X', 'D', 'P'] then readOffset Instr.xdp ops
  else if name = ['X', 'D', 'S'] then readOffset Instr.xds ops
  else if name = ['X', 'B', 'I', 'T'] then
    (match ops with
    | [off, k] =>
      (match readBelow 256 off, readBelow 8 k with
      | some o, some n => some (.xbit o n)
      | _, _ => none)
    | _ => none)
  else none

/-- A pseudo-instruction on its `off`. -/
def readPseudoOffset (mk : Nat → Pseudo) (ops : List (List Char)) : Option Pseudo :=
  match ops with
  | [off] => (readNat off).map mk
  | _ => none

/-- A pseudo-instruction of R63 from its name and operands. -/
def readPseudo (name : List Char) (ops : List (List Char)) : Option Pseudo :=
  if name = ['X', 'R', 'A', 'N', 'G', 'E'] then readPseudoOffset Pseudo.xrange ops
  else if name = ['X', 'G', 'A', 'S'] then readPseudoOffset Pseudo.xgas ops
  else if name = ['X', 'T', 'E', 'M', 'P'] then readPseudoOffset Pseudo.xtemp ops
  else if name = ['X', 'H', 'U', 'M'] then readPseudoOffset Pseudo.xhum ops
  else if name = ['L', 'O', 'A', 'D', 'F'] then (readLoadf ops).map Pseudo.loadf
  else if name = ['O', 'P', 'I'] then
    (match ops with
    | [sel, v] =>
      (match readSel sel, readNat v with
      | some a, some n => some (.opi a n)
      | _, _ => none)
    | _ => none)
  else if name = ['O', 'P', 'B'] then
    (match ops with
    | sel :: bytes =>
      (match readSel sel, readBytes bytes with
      | some a, some bs => some (.opb a bs)
      | _, _ => none)
    | [] => none)
  else if name = ['C', 'S', 'A', 'P', 'P'] then
    (match ops with
    | [ifb] => (readFlag ifb).map Pseudo.csapp
    | _ => none)
  else if name = ['B', 'U', 'I', 'L', 'D', 'C'] then
    (match ops with
    | [v] => (readNat v).map Pseudo.buildc
    | _ => none)
  else none

/-- The operand texts of a line after its mnemonic; none when only blanks follow it. -/
def operandTexts (rest : List Char) : List (List Char) :=
  if trimBlanks rest = [] then [] else (splitCommas rest).map trimBlanks

/-- The commands of one line, for the parameters `c`: none of them for an empty or comment line,
nothing when the line is not of the syntax. It reads R62's and R63's lines and the lines of the
programs of spec/95_test_vectors.md; the points it settles itself are those of log entry 11. -/
def assembleLine (c : Config) (line : List Char) : Option (List Instr) :=
  match firstWord (trimBlanks (beforeComment line)) with
  | ([], _) => some []
  | (name, rest) =>
    match readCommand name (operandTexts rest) with
    | some i => some [i]
    | none =>
      match readPseudo name (operandTexts rest) with
      | some p => if p.wf c then some (p.expand c) else none
      | none => none

end Sys2Proof.Machine
end

