-- ==== Sys2Proof/Machine/Parametric.lean ====
section
/-! DEFINITION. The commands for every parameter setting of spec/00_scope.md R4: "both are parameters
so that a model can quantify over them". `exec` is the instance at `Config.hardware`. -/

namespace Sys2Proof.Machine

/-- One command of a block built with the parameters `c`. The commands that read no parameter are
those of `exec`. -/
def execAt (c : Config) (i : Instr) (s : State) : Result :=
  match i with
  | .nop => execNop s
  | .rst => execRst s
  | .bclr => execBclr s
  | .bpush imm8 => execBpushAt c imm8 s
  | .bpushr => execBpushrAt c s
  | .csum ifb len => execCsum ifb len s
  | .verify ifb t => execVerifyAt c ifb t s
  | .opset sel tag => execOpset sel tag s
  | .oppush sel imm8 => execOppushAt c sel imm8 s
  | .build dp => execBuild dp s
  | .xu8 off => execXu8 off s
  | .xu16 off => execXu16 off s
  | .xcenti off => execXcenti off s
  | .xunit off => execXunit off s
  | .xdp off => execXdpAt c off s
  | .xds off => execXdsAt c off s
  | .xbit off k => execXbit off k s

end Sys2Proof.Machine
end

