-- ==== Sys2Proof/Safety.lean ====
section
/-! DEFINITION. What a safe state and a safe run are, in the terms the claims use: the invariants of
the state elements, and the spec's tables of which command writes and raises what. -/

namespace Sys2Proof.Machine

/-- OPC and OPP hold at most `OPND_CAP` bytes (spec/10_state.md R18). -/
abbrev OperandsFit (c : Config) (s : State) : Prop :=
  s.opc.bytes.length ≤ c.opndCap ∧ s.opp.bytes.length ≤ c.opndCap

/-- "Values 7 to 15 never occur" in ERR (spec/10_state.md R16). -/
abbrev ErrLegal (s : State) : Prop := s.err.toNat ≤ 6

/-- "Bit 0 and bits 31 to 7 are always 0" in FAULTS (spec/10_state.md R17). -/
abbrev FaultsReservedZero (s : State) : Prop := s.faults &&& 0xFFFFFF81 = 0

/-- An error still in ERR is recorded in FAULTS (spec/60_exceptions.md R124, spec/10_state.md R17). -/
abbrev ErrRecorded (s : State) : Prop := s.err ≠ 0 → s.faults.getLsbD s.err.toNat = true

/-- Every result is below `2^26` (spec/43_field_extractor.md R113, last row of its table). -/
abbrev ResNarrow (s : State) : Prop := s.res.toNat < 2 ^ 26

/-- "`V = 1` always speaks of the bytes now in BUF" (spec/10_state.md R15): the buffer is long enough
to verify and one of the two start indices verifies it. -/
abbrev VTruthful (c : Config) (s : State) : Prop :=
  s.v = true → c.verifyMinLen ≤ s.len ∧ (verifyMatch s.buf false || verifyMatch s.buf true) = true

/-- The invariant of a block built with the parameters `c`. -/
abbrev State.Inv (c : Config) (s : State) : Prop :=
  Memory.wf c s.buf ∧ OperandsFit c s ∧ ErrLegal s ∧ FaultsReservedZero s ∧ ErrRecorded s ∧
    ResNarrow s ∧ VTruthful c s

/-- "a run is faulted exactly when `FAULTS != 0` at its end" (spec/60_exceptions.md R129). -/
abbrev State.Faulted (s : State) : Prop := s.faults ≠ 0

/-- Every byte of BUF reads as before. -/
abbrev SameBytes (s t : State) : Prop := ∀ a, t.readByte a = s.readByte a

/-- Which error kinds a command can raise, the table of spec/60_exceptions.md R122. -/
def possibleErrors : Instr → List ErrorKind
  | .nop => []
  | .rst => []
  | .bclr => []
  | .bpush _ => [.bufferFull]
  | .bpushr => [.bufferFull]
  | .csum _ _ => [.invalidInput]
  | .verify _ t => if t then [.invalidInput, .checksumMismatch] else [.invalidInput]
  | .opset _ _ => []
  | .oppush _ _ => [.bufferFull]
  | .build _ => [.unsupportedType]
  | .xu8 _ => [.windowOutOfRange]
  | .xu16 _ => [.windowOutOfRange]
  | .xcenti _ => [.windowOutOfRange]
  | .xunit _ => [.windowOutOfRange]
  | .xdp _ => [.windowOutOfRange]
  | .xds _ => [.windowOutOfRange]
  | .xbit _ _ => [.windowOutOfRange]

/-- How a command touches BUF, the last column of spec/20_memory.md R33. -/
inductive BufEffect where
  /-- "none" in R33. -/
  | keeps
  /-- "1, appended at index LEN". -/
  | appends
  /-- "the whole sequence is replaced", or "the sequence becomes empty". -/
  | replaces
deriving DecidableEq, Repr

/-- The table of spec/20_memory.md R33. -/
def bufEffect : Instr → BufEffect
  | .nop => .keeps
  | .rst => .replaces
  | .bclr => .replaces
  | .bpush _ => .appends
  | .bpushr => .appends
  | .csum _ _ => .keeps
  | .verify _ _ => .keeps
  | .opset _ _ => .keeps
  | .oppush _ _ => .keeps
  | .build _ => .replaces
  | .xu8 _ => .keeps
  | .xu16 _ => .keeps
  | .xcenti _ => .keeps
  | .xunit _ => .keeps
  | .xdp _ => .keeps
  | .xds _ => .keeps
  | .xbit _ _ => .keeps

/-- The commands that write RES, spec/10_state.md section 1: "CSUM, VERIFY, BUILD, every X command,
RST". -/
def writesRes : Instr → Bool
  | .nop => false
  | .rst => true
  | .bclr => false
  | .bpush _ => false
  | .bpushr => false
  | .csum _ _ => true
  | .verify _ _ => true
  | .opset _ _ => false
  | .oppush _ _ => false
  | .build _ => true
  | .xu8 _ => true
  | .xu16 _ => true
  | .xcenti _ => true
  | .xunit _ => true
  | .xdp _ => true
  | .xds _ => true
  | .xbit _ _ => true

/-- The commands that write an operand register, spec/10_state.md section 1: OPSET and OPPUSH the
selected one, RST both. -/
def writesOperand : OperandSel → Instr → Bool
  | _, .nop => false
  | _, .rst => true
  | _, .bclr => false
  | _, .bpush _ => false
  | _, .bpushr => false
  | _, .csum _ _ => false
  | _, .verify _ _ => false
  | r, .opset sel _ => decide (sel = r)
  | r, .oppush sel _ => decide (sel = r)
  | _, .build _ => false
  | _, .xu8 _ => false
  | _, .xu16 _ => false
  | _, .xcenti _ => false
  | _, .xunit _ => false
  | _, .xdp _ => false
  | _, .xds _ => false
  | _, .xbit _ _ => false

/-- The extractor commands with the window width `w` of spec/20_memory.md R33 and their offset. -/
def windowOf : Instr → Option (Nat × Nat)
  | .nop => none
  | .rst => none
  | .bclr => none
  | .bpush _ => none
  | .bpushr => none
  | .csum _ _ => none
  | .verify _ _ => none
  | .opset _ _ => none
  | .oppush _ _ => none
  | .build _ => none
  | .xu8 off => some (off, 1)
  | .xu16 off => some (off, 2)
  | .xcenti off => some (off, 2)
  | .xunit off => some (off, 1)
  | .xdp off => some (off, 1)
  | .xds off => some (off, 1)
  | .xbit off _ => some (off, 1)

end Sys2Proof.Machine
end

