-- ==== Sys2Proof/Certificates/Slice0/Obligations.lean ====
section
/-! DEFINITION. The statements for the provers. A statement that names a result state in full
(`{ s with … }`) states the frame too: every field not named keeps its value, `pending` among them.
Where a statement rests on a choice of the model's, its docstring names the log entry. -/

open Sys2Proof Sys2Proof.Machine

/-! ### Command words -/

/-- Every well-formed command is read back from its word: no operand bit is dropped (R51, R53). -/
def Obligations.DecodeOfEncodeIsTheCommand : Prop :=
  ∀ i : Instr, i.wf = true → decode (encode i) = .ok i

/-- Every word that decodes is the word of exactly that command, and the command is well formed: each
word has one meaning and no reserved bit is ignored (R51, R59). -/
def Obligations.EncodeOfDecodeIsTheWord : Prop :=
  ∀ (w : Word) (i : Instr), decode w = .ok i → i.wf = true ∧ encode i = w

/-- R52: a word is a command exactly when `w & mask = match`. The decoder reads fields and does not
use the map's columns. -/
def Obligations.DecodeAgreesWithOpcodeMap : Prop :=
  ∀ (w : Word) (m : Mnemonic), (∃ i, decode w = .ok i ∧ i.mnemonic = m) ↔ m.Matches w

/-- R60: every word is exactly one of the seventeen commands or is illegal. -/
def Obligations.EveryWordIsOneCommandOrIllegal : Prop :=
  ∀ w : Word,
    (∃ m i, m.Matches w ∧ (∀ m', Mnemonic.Matches m' w → m' = m) ∧ decode w = .ok i ∧
        i.mnemonic = m) ∨
      ((∀ m, ¬ Mnemonic.Matches m w) ∧ ∃ e, decode w = .error e)

/-- R58: a word that matches no row raises `IllegalCommand` (code 6) and changes nothing else. -/
def Obligations.IllegalWordRaisesIllegalCommand : Prop :=
  ∀ (w : Word) (s : State), (∀ m, ¬ Mnemonic.Matches m w) →
    presentWord w s = .next { s with err := 6, faults := s.faults ||| 0x40 }

/-- R59: with an assigned opcode, any set reserved bit makes the word illegal; all four tags of OPSET
are legal. -/
def Obligations.ReservedBitsAreChecked : Prop :=
  (∀ (w : Word) (m : Mnemonic), bits w 31 24 = bits m.pattern 31 24 → ¬ m.Matches w →
      decode w = .error (.reservedBitSet (bits w 31 24))) ∧
    (∀ (sel : OperandSel) (tag : Tag), ∃ w, decode w = .ok (.opset sel tag)) ∧
    decode 0x00000001 = .error (.reservedBitSet 0x00) ∧
    decode 0x21000001 = .error (.reservedBitSet 0x21) ∧
    decode 0x40000100 = .error (.reservedBitSet 0x40)

/-- Words of spec/30_encoding.md R62 and spec/95_test_vectors.md and the commands they stand for. -/
def Obligations.SpecWordsDecodeToTheirCommands : Prop :=
  decode 0x00000000 = .ok .nop ∧ decode 0x01000000 = .ok .rst ∧
    decode 0x11000086 = .ok (.bpush 0x86) ∧ decode 0x2000FFFF = .ok (.csum false (-1)) ∧
    decode 0x21020000 = .ok (.verify false true) ∧ decode 0x30000102 = .ok (.opset .opp .text) ∧
    decode 0x31000141 = .ok (.oppush .opp 0x41) ∧ decode 0x32000001 = .ok (.build true) ∧
    decode 0x4200000A = .ok (.xcenti 10) ∧ decode 0x46000706 = .ok (.xbit 6 7)

/-! ### Steps, the host, reset -/

/-- R9, R20, R50, R140: a step carries out the host's next action, whichever it is, on the state with
that action taken from the queue; where it presents a word that decodes to `i`, as a command or as a
write of CMD, that is `exec i`. The queue is the model's form of the host's list (log entry 2), the
reset pulse as one action is log entry 3. -/
def Obligations.StepRunsTheDecodedCommand : Prop :=
  (∀ (s : State) (a : HostAction) (rest : List HostAction), s.pending = a :: rest →
    step s = hostAct a { s with pending := rest }) ∧
  ∀ (s : State) (w : Word) (rest : List HostAction) (i : Instr), decode w = .ok i →
    (s.pending = .command w :: rest ∨ s.pending = .busWrite 0x000 w :: rest →
      step s = exec i { s with pending := rest }) ∧
      step (s.withFetchWord 32 w.toNat) = exec i s

/-- R9, R128: every step answers a next state and takes exactly one action from the host's queue,
whether the command raised or not; with nothing queued the state does not change (log entry 2). -/
def Obligations.EveryStepAnswersAndTakesOneAction : Prop :=
  ∀ s : State, (∃ t, step s = .next t ∧ t.pending = s.pending.tail) ∧
    (s.pending = [] → step s = .next s)

/-- R9: stepping through a queue of command words is the left fold over the list of words, whatever
the host queues after them (log entry 2). -/
def Obligations.QueuedWordsRunAsTheFold : Prop :=
  ∀ (ws : List Word) (rest : List HostAction) (s : State),
    Host.Core.run Sys2Proof.core ws.length
        { s with pending := ws.map HostAction.command ++ rest } =
      runWords ws { s with pending := rest }

/-- R21: a host read changes no state element; it only leaves the queue (log entry 2). -/
def Obligations.HostReadHasNoSideEffect : Prop :=
  ∀ (s : State) (offset : Nat) (rest : List HostAction), s.pending = .busRead offset :: rest →
    step s = .next { s with pending := rest }

/-- R20: what each offset of the host address map reads as, and that a write presents a command word
at CMD and is ignored elsewhere. That BUFWIN's byte is zero-extended is log entry 7; that an offset
inside a register, such as 0x005, counts as one not in the table is log entry 6. -/
def Obligations.HostAddressMap : Prop :=
  ∀ s : State,
    hostRead s 0x000 = 0 ∧
      hostRead s 0x004 = statusView s ∧ hostRead s 0x008 = errView s ∧
      hostRead s 0x00C = s.faults ∧ hostRead s 0x010 = s.res ∧ hostRead s 0x014 = lenView s ∧
      hostRead s 0x018 = operandView s.opc ∧ hostRead s 0x01C = operandView s.opp ∧
      (∀ i b, i < 255 → s.readByte i = some b → hostRead s (0x100 + i) = b.setWidth 32) ∧
      (∀ i, i < 255 → s.len ≤ i → hostRead s (0x100 + i) = 0) ∧
      (∀ offset,
        offset ∉ [0x004, 0x008, 0x00C, 0x010, 0x014, 0x018, 0x01C] →
        (offset < 0x100 ∨ 0x100 + 255 ≤ offset) → hostRead s offset = 0) ∧
      (∀ w, hostAct (.busWrite 0x000 w) s = presentWord w s) ∧
      ∀ offset w, offset ≠ 0x000 → hostAct (.busWrite offset w) s = .next s

/-- R19: the fields of the register views, with their reserved bits reading 0, in every state that
meets the invariant. -/
def Obligations.RegisterViewFields : Prop :=
  ∀ s : State, s.Inv Config.hardware →
    bits (statusView s) 0 0 = (if s.err = 0 then 0 else 1) ∧
      bits (statusView s) 1 1 = s.v.toNat ∧ bits (statusView s) 2 2 = s.u.toNat ∧
      bits (statusView s) 31 3 = 0 ∧
      bits (errView s) 3 0 = s.err.toNat ∧ bits (errView s) 31 4 = 0 ∧
      bits (hostRead s 0x00C) 0 0 = 0 ∧ bits (hostRead s 0x00C) 31 7 = 0 ∧
      (∀ c, 1 ≤ c → c ≤ 6 → bits (hostRead s 0x00C) c c = (s.faults.getLsbD c).toNat) ∧
      hostRead s 0x010 = s.res ∧
      bits (lenView s) 7 0 = s.buf.length ∧ bits (lenView s) 31 8 = 0 ∧
      ∀ sel, bits (operandView (getOperand sel s)) 1 0 = (getOperand sel s).tag.code ∧
        bits (operandView (getOperand sel s)) 7 2 = 0 ∧
        bits (operandView (getOperand sel s)) 15 8 = (getOperand sel s).bytes.length ∧
        bits (operandView (getOperand sel s)) 31 16 = 0

/-- R22: the value of every state element after reset. -/
def Obligations.ResetValues : Prop :=
  State.reset.buf = [] ∧ State.reset.len = 0 ∧ State.reset.res = 0 ∧ State.reset.err = 0 ∧
    State.reset.faults = 0 ∧ State.reset.v = false ∧ State.reset.u = false ∧
    State.reset.e = false ∧ State.reset.opc = { tag := .none, bytes := [] } ∧
    State.reset.opp = { tag := .none, bytes := [] }

/-! ### Control and buffer commands -/

/-- R70: NOP writes nothing but `ERR <- 0`. -/
def Obligations.NopWritesOnlyErr : Prop :=
  decode 0x00000000 = .ok .nop ∧ ∀ s : State, exec .nop s = .next { s with err := 0 }

/-- R71: RST gives every state element its reset value, which is also what the `rst_n` input gives.
The host's queue is no element of the block and stays (log entries 2, 3). -/
def Obligations.RstGivesTheResetState : Prop :=
  decode 0x01000000 = .ok .rst ∧
    ∀ s : State,
      exec .rst s = .next
          { buf := [], res := 0, err := 0, faults := 0, v := false, u := false
            opc := { tag := .none, bytes := [] }, opp := { tag := .none, bytes := [] }
            pending := s.pending } ∧
        hostAct .resetPulse s = exec .rst s

/-- R72: BCLR empties BUF and clears V. -/
def Obligations.BclrEmptiesTheBuffer : Prop :=
  decode 0x10000000 = .ok .bclr ∧
    ∀ s : State, ∃ t, exec .bclr s = .next t ∧ t = { s with buf := [], v := false, err := 0 } ∧
      t.len = 0 ∧ ∀ a, t.readByte a = none

/-- R73: BPUSH appends its byte at index LEN and clears V, or raises `BufferFull` at the capacity. -/
def Obligations.BpushAppendsItsByte : Prop :=
  (∀ imm8 : Byte, decode (0x11000000#32 ||| imm8.setWidth 32) = .ok (.bpush imm8)) ∧
    ∀ (s : State) (imm8 : Byte),
      (s.len < 64 → ∃ t, exec (.bpush imm8) s = .next t ∧
        t = { s with buf := s.buf ++ [imm8], v := false, err := 0 } ∧ t.len = s.len + 1 ∧
        t.readByte (appendAddress s) = some imm8 ∧
        ∀ a, a ≠ appendAddress s → t.readByte a = s.readByte a) ∧
      (s.len = 64 → exec (.bpush imm8) s =
        .next { s with err := 5, faults := s.faults ||| 0x20 })

/-- R74: BPUSHR appends `RES[7:0]` at index LEN and clears V, or raises `BufferFull` at the
capacity. -/
def Obligations.BpushrAppendsTheLowByteOfRes : Prop :=
  decode 0x12000000 = .ok .bpushr ∧
    ∀ s : State,
      (s.len < 64 → ∃ t b, exec .bpushr s = .next t ∧ b.toNat = bits s.res 7 0 ∧
        t = { s with buf := s.buf ++ [b], v := false, err := 0 } ∧ t.len = s.len + 1 ∧
        t.readByte (appendAddress s) = some b ∧
        ∀ a, a ≠ appendAddress s → t.readByte a = s.readByte a) ∧
      (s.len = 64 → exec .bpushr s = .next { s with err := 5, faults := s.faults ||| 0x20 })

/-! ### The checksum engine -/

/-- R80 to R83: CSUM raises `InvalidInput` below 4 bytes; else RES is `(255 - t + 1) mod 256` for the
sum `t` modulo 256 of the bytes whose index is in `[s, e)`, with R81's `s` and `e`. That a negative
length reaching the start selects nothing is the reading of log entry 4. -/
def Obligations.CsumComputesTheChecksumOfTheRange : Prop :=
  (∀ (ifb : Bool) (len : Int), -32768 ≤ len → len ≤ 32767 →
      decode (0x20000000#32 ||| BitVec.ofNat 32 (ifb.toNat * 2 ^ 16) |||
        BitVec.ofNat 32 (len % 65536).toNat) = .ok (.csum ifb len)) ∧
    ∀ (s : State) (ifb : Bool) (len : Int),
      (s.len < 4 → exec (.csum ifb len) s =
        .next { s with err := 1, faults := s.faults ||| 0x02 }) ∧
      (4 ≤ s.len →
        let start : Nat := if ifb = true then 0 else 1
        let stop : Int :=
          if 0 < len then min (start + len) s.len
          else if len < 0 then s.len + len else s.len
        let t : Nat := (∑ i ∈ Finset.range s.len,
          if start ≤ i ∧ (i : Int) < stop then (s.buf.getD i 0).toNat else 0) % 256
        exec (.csum ifb len) s =
          .next { s with res := BitVec.ofNat 32 ((255 - t + 1) % 256), err := 0 })

/-- R81, R82: a negative length that reaches the start selects nothing, and the checksum is 0, which
is the open reading D8 that log entry 4 takes; a positive length at or past the end is the whole
range. -/
def Obligations.CsumRangeCorners : Prop :=
  ∀ (s : State) (ifb : Bool) (len : Int), 4 ≤ s.len →
    (len < 0 → (s.len : Int) - (if ifb = true then 0 else 1) ≤ -len →
      exec (.csum ifb len) s = .next { s with res := 0, err := 0 }) ∧
    ((s.len : Int) ≤ len → exec (.csum ifb len) s = exec (.csum ifb 0) s)

/-- R86, R87: VERIFY of at least 5 bytes (this hardware's `VERIFY_MIN_LEN`) writes V with the
comparison of the last byte against the checksum of indices `s` to `LEN-2`; with `t = 1` a mismatch
raises `ChecksumMismatch` and leaves RES; else RES is the outcome. Below 5 bytes it clears V and
raises `InvalidInput`; that 4 bytes are below the guard rests on log entry 4. -/
def Obligations.VerifyComparesTheLastByte : Prop :=
  (∀ ifb t : Bool, decode (0x21000000#32 ||| BitVec.ofNat 32 (t.toNat * 2 ^ 17) |||
      BitVec.ofNat 32 (ifb.toNat * 2 ^ 16)) = .ok (.verify ifb t)) ∧
    ∀ (s : State) (ifb t : Bool),
      (s.len < 5 → exec (.verify ifb t) s =
        .next { s with v := false, err := 1, faults := s.faults ||| 0x02 }) ∧
      (5 ≤ s.len →
        let start : Nat := if ifb = true then 0 else 1
        let sum : Nat := (∑ i ∈ Finset.range (s.len - 1),
          if start ≤ i then (s.buf.getD i 0).toNat else 0) % 256
        let m : Bool := decide ((255 - sum + 1) % 256 = (s.buf.getD (s.len - 1) 0).toNat)
        (m = true → exec (.verify ifb t) s = .next { s with res := 1, v := true, err := 0 }) ∧
        (m = false → t = false →
          exec (.verify ifb t) s = .next { s with res := 0, v := false, err := 0 }) ∧
        (m = false → t = true →
          exec (.verify ifb t) s =
            .next { s with v := false, err := 3, faults := s.faults ||| 0x08 }))

/-- R85 for every legal parameter setting: below `VERIFY_MIN_LEN` VERIFY clears V and raises
`InvalidInput`, at or above it never raises it; lengths 0 to 3 always raise it and lengths from 5
never do. -/
def Obligations.VerifyLengthGuardOfEveryBlock : Prop :=
  ∀ (c : Config) (s t : State) (ifb strict : Bool), c.Legal →
    execAt c (.verify ifb strict) s = .next t →
    (t.err = 1 ↔ s.len < c.verifyMinLen) ∧ (t.err = 1 → t.v = false) ∧
      (s.len ≤ 3 → t.err = 1) ∧ (5 ≤ s.len → t.err ≠ 1)

/-- R86 with R84: a buffer of at least 5 bytes verifies exactly when the sum of all its bytes from
the start index on, the last included, is 0 modulo 256. -/
def Obligations.VerifyMatchesExactlyWhenTheSumIsZero : Prop :=
  ∀ (s t : State) (ifb strict : Bool), 5 ≤ s.len → exec (.verify ifb strict) s = .next t →
    (t.v = true ↔ sumBytes (s.buf.drop (if ifb = true then 0 else 1)) % 256 = 0)

/-- R84: the checksum of a range completes its sum to 0 modulo 256, and does not depend on the order
of the bytes. -/
def Obligations.ChecksumCompletesTheSum : Prop :=
  (∀ range : List Byte, (sumBytes range + (checksumOf range).toNat) % 256 = 0) ∧
    ∀ a b : List Byte, a.Perm b → checksumOf a = checksumOf b

/-- R88, the document's round trip: on any buffer of 4 bytes up to one below the capacity, CSUM of
the whole range, BPUSHR, and VERIFY with the same `ifb` end with `RES = 1`, `V = 1`, `ERR = 0`. -/
def Obligations.ChecksumRoundTrip : Prop :=
  ∀ (s : State) (ifb strict : Bool), 4 ≤ s.len → s.len < 64 →
    ∃ t k, runInstrs [.csum ifb 0, .bpushr, .verify ifb strict] s = .next t ∧
      t = { s with buf := s.buf ++ [k], res := 1, v := true, err := 0 }

/-- R89: the outcome of CSUM and VERIFY depends on BUF and the command's fields only. -/
def Obligations.ChecksumCommandsDependOnTheBufferOnly : Prop :=
  ∀ (c : Config) (s s' t t' : State), s.buf = s'.buf →
    (∀ ifb len, execAt c (.csum ifb len) s = .next t → execAt c (.csum ifb len) s' = .next t' →
      t.err = t'.err ∧ (t.err = 0 → t.res = t'.res)) ∧
    (∀ ifb strict, execAt c (.verify ifb strict) s = .next t →
      execAt c (.verify ifb strict) s' = .next t' →
      t.err = t'.err ∧ t.v = t'.v ∧ (t.err = 0 → t.res = t'.res))

/-! ### The frame builder -/

/-- R90: OPSET writes the tag of the selected operand and empties its bytes; every tag is legal. -/
def Obligations.OpsetDeclaresTheOperand : Prop :=
  (∀ sel tag, decode (0x30000000#32 ||| BitVec.ofNat 32 (sel.code * 2 ^ 8) |||
      BitVec.ofNat 32 tag.code) = .ok (.opset sel tag)) ∧
    ∀ (s : State) (tag : Tag),
      exec (.opset .opc tag) s = .next { s with opc := { tag := tag, bytes := [] }, err := 0 } ∧
      exec (.opset .opp tag) s = .next { s with opp := { tag := tag, bytes := [] }, err := 0 }

/-- R91: OPPUSH appends its byte to the selected operand whatever the tag, or raises `BufferFull`
when 8 bytes are staged. -/
def Obligations.OppushAppendsToTheOperand : Prop :=
  (∀ (sel : OperandSel) (imm8 : Byte),
      decode (0x31000000#32 ||| BitVec.ofNat 32 (sel.code * 2 ^ 8) ||| imm8.setWidth 32) =
        .ok (.oppush sel imm8)) ∧
    ∀ (s : State) (imm8 : Byte),
      (s.opc.bytes.length < 8 → exec (.oppush .opc imm8) s =
        .next { s with opc := { tag := s.opc.tag, bytes := s.opc.bytes ++ [imm8] }, err := 0 }) ∧
      (s.opp.bytes.length < 8 → exec (.oppush .opp imm8) s =
        .next { s with opp := { tag := s.opp.tag, bytes := s.opp.bytes ++ [imm8] }, err := 0 }) ∧
      (∀ sel, (getOperand sel s).bytes.length = 8 → exec (.oppush sel imm8) s =
        .next { s with err := 5, faults := s.faults ||| 0x20 })

/-- R93: BYTES enter the frame unchanged; INT bytes enter it without their leading zero bytes, or as
one zero byte when that leaves nothing. -/
def Obligations.OperandEncoding : Prop :=
  ∀ b : List Byte,
    encOperand { tag := .bytes, bytes := b } = some b ∧
      ∃ z r, b = List.replicate z (0 : Byte) ++ r ∧ r.head? ≠ some 0 ∧
        encOperand { tag := .int, bytes := b } = some (if r = [] then [0] else r)

/-- R93 against the document's words: the encoding of an INT operand denotes the same integer (R18)
and has the bit length rounded up to whole bytes, at least 1. -/
def Obligations.IntOperandEncodingIsMinimal : Prop :=
  ∀ (b m : List Byte), encOperand { tag := .int, bytes := b } = some m →
    beValue m = beValue b ∧ m.length = max 1 ((Nat.size (beValue b) + 7) / 8)

/-- R92, R94, R95: BUILD raises `UnsupportedType`, changing nothing else, when OPC, or without `dp`
OPP, is TEXT or NONE; otherwise BUF is header, command, payload, trailer and the checksum of all of
it from index 1, RES is the checksum, V is cleared and the operands stay (R96). -/
def Obligations.BuildAssemblesTheFrame : Prop :=
  (∀ dp : Bool, decode (0x32000000#32 ||| BitVec.ofNat 32 dp.toNat) = .ok (.build dp)) ∧
    ∀ (s : State) (dp : Bool),
      (s.opc.tag = .text ∨ s.opc.tag = .none ∨
          (dp = false ∧ (s.opp.tag = .text ∨ s.opp.tag = .none)) →
        exec (.build dp) s = .next { s with err := 2, faults := s.faults ||| 0x04 }) ∧
      (∀ command payload : List Byte, encOperand s.opc = some command →
        (dp = true → payload = [0x00]) → (dp = false → encOperand s.opp = some payload) →
        ∃ k : Byte,
          exec (.build dp) s = .next
            { s with
              buf := [0xFF, 0x01] ++ command ++ payload ++ [0x00, 0x00, 0x00, 0x00] ++ [k]
              res := k.setWidth 32
              v := false
              err := 0 } ∧
          k.toNat = (255 - (1 + sumBytes command + sumBytes payload) % 256 + 1) % 256)

/-- R38, R39: the bytes of a built frame, index by index, and its length. -/
def Obligations.BuiltFrameLayout : Prop :=
  ∀ (s t : State) (dp : Bool) (command payload : List Byte),
    exec (.build dp) s = .next t → encOperand s.opc = some command →
    payloadBytes dp s = some payload →
    t.len = command.length + payload.length + 7 ∧
      t.readByte 0 = some 0xFF ∧ t.readByte 1 = some 0x01 ∧
      (∀ i, i < command.length → t.readByte (2 + i) = command[i]?) ∧
      (∀ i, i < payload.length → t.readByte (2 + command.length + i) = payload[i]?) ∧
      (∀ i, i < 4 → t.readByte (2 + command.length + payload.length + i) = some 0x00) ∧
      ∃ k, t.readByte (2 + command.length + payload.length + 4) = some k ∧
        cks (t.buf.take (t.len - 1)) false 0 = .ok k

/-- R98: after a BUILD that completes, `VERIFY 0, t` gives 1, `CSUM 0, -1` gives the last byte of
BUF, and `VERIFY 1, t` finds no match. -/
def Obligations.BuiltFrameVerifies : Prop :=
  ∀ (s t : State) (dp strict : Bool), exec (.build dp) s = .next t → t.err = 0 →
    exec (.verify false strict) t = .next { t with res := 1, v := true, err := 0 } ∧
      (∃ k, t.buf.getLast? = some k ∧
        exec (.csum false (-1)) t = .next { t with res := k.setWidth 32, err := 0 }) ∧
      exec (.verify true false) t = .next { t with res := 0, v := false, err := 0 } ∧
      exec (.verify true true) t =
        .next { t with v := false, err := 3, faults := t.faults ||| 0x08 }

/-! ### The field extractors -/

/-- R101: XU8 gives the byte at `off`, or raises `WindowOutOfRange`. -/
def Obligations.Xu8ReadsTheByte : Prop :=
  (∀ off, off < 256 → decode (0x40000000#32 ||| BitVec.ofNat 32 off) = .ok (.xu8 off)) ∧
    ∀ (s : State) (off : Nat),
      (∀ b, s.readByte off = some b →
        exec (.xu8 off) s = .next { s with res := b.setWidth 32, err := 0 }) ∧
      (s.len < off + 1 →
        exec (.xu8 off) s = .next { s with err := 4, faults := s.faults ||| 0x10 })

/-- R102: XU16 gives the unsigned big-endian 16-bit field at `off`, or raises `WindowOutOfRange`. -/
def Obligations.Xu16ReadsTheBigEndianField : Prop :=
  (∀ off, off < 256 → decode (0x41000000#32 ||| BitVec.ofNat 32 off) = .ok (.xu16 off)) ∧
    ∀ (s : State) (off : Nat),
      (∀ hi lo : Byte, s.readByte off = some hi → s.readByte (off + 1) = some lo →
        ∃ t, exec (.xu16 off) s = .next t ∧ t = { s with res := t.res, err := 0 } ∧
          t.res.toNat = 256 * hi.toNat + lo.toNat) ∧
      (s.len < off + 2 →
        exec (.xu16 off) s = .next { s with err := 4, faults := s.faults ||| 0x10 })

/-- R104: XCENTI gives the quotient by 100 of the 16-bit field in bits 31 to 16 of RES and the
remainder in bits 15 to 0, or raises `WindowOutOfRange`. -/
def Obligations.XcentiDividesByOneHundred : Prop :=
  (∀ off, off < 256 → decode (0x42000000#32 ||| BitVec.ofNat 32 off) = .ok (.xcenti off)) ∧
    ∀ (s : State) (off : Nat),
      (∀ hi lo : Byte, s.readByte off = some hi → s.readByte (off + 1) = some lo →
        ∃ t, exec (.xcenti off) s = .next t ∧ t = { s with res := t.res, err := 0 } ∧
          bits t.res 31 16 = (256 * hi.toNat + lo.toNat) / 100 ∧
          bits t.res 15 0 = (256 * hi.toNat + lo.toNat) % 100) ∧
      (s.len < off + 2 →
        exec (.xcenti off) s = .next { s with err := 4, faults := s.faults ||| 0x10 })

/-- R105: the rational number an XCENTI result denotes is the field divided by 100. -/
def Obligations.XcentiDenotesTheFieldOverOneHundred : Prop :=
  ∀ (s t : State) (off : Nat) (hi lo : Byte), s.readByte off = some hi →
    s.readByte (off + 1) = some lo → exec (.xcenti off) s = .next t →
    centiValue t.res = ((256 * hi.toNat + lo.toNat : Nat) : Rat) / 100

/-- R106: XUNIT gives the index of the three unit bytes and 0 for any other, which is no error, and U
says whether the byte was one of them; or it raises `WindowOutOfRange`. The last clause is the rule's
table of unit strings, which the host attaches. -/
def Obligations.XunitClassifiesTheByte : Prop :=
  (∀ off, off < 256 → decode (0x43000000#32 ||| BitVec.ofNat 32 off) = .ok (.xunit off)) ∧
    ∀ (s : State) (off : Nat),
      (s.readByte off = some 0x02 →
        exec (.xunit off) s = .next { s with res := 1, u := true, err := 0 }) ∧
      (s.readByte off = some 0x04 →
        exec (.xunit off) s = .next { s with res := 2, u := true, err := 0 }) ∧
      (s.readByte off = some 0x08 →
        exec (.xunit off) s = .next { s with res := 3, u := true, err := 0 }) ∧
      (∀ b, s.readByte off = some b → b ≠ 0x02 → b ≠ 0x04 → b ≠ 0x08 →
        exec (.xunit off) s = .next { s with res := 0, u := false, err := 0 }) ∧
      (s.len < off + 1 →
        exec (.xunit off) s = .next { s with err := 4, faults := s.faults ||| 0x10 }) ∧
      unitPair 1 = some ("ppm", "mg/m³") ∧ unitPair 2 = some ("ppb", "µg/m³") ∧
      unitPair 3 = some ("10g/m³", "%") ∧ unitPair 0 = none

/-- R109: XDP gives bits 7 to 4 of the byte at `off` with the default `NIBBLE_MAP`, on which the
value rests (log entry 4), or raises `WindowOutOfRange`. -/
def Obligations.XdpGivesTheHighNibble : Prop :=
  (∀ off, off < 256 → decode (0x44000000#32 ||| BitVec.ofNat 32 off) = .ok (.xdp off)) ∧
    ∀ (s : State) (off : Nat),
      (∀ b : Byte, s.readByte off = some b →
        exec (.xdp off) s = .next { s with res := BitVec.ofNat 32 (b.toNat / 16), err := 0 }) ∧
      (s.len < off + 1 →
        exec (.xdp off) s = .next { s with err := 4, faults := s.faults ||| 0x10 })

/-- R110: XDS gives bits 3 to 0 of the byte at `off` with the default `NIBBLE_MAP`, on which the
value rests (log entry 4), or raises `WindowOutOfRange`. -/
def Obligations.XdsGivesTheLowNibble : Prop :=
  (∀ off, off < 256 → decode (0x45000000#32 ||| BitVec.ofNat 32 off) = .ok (.xds off)) ∧
    ∀ (s : State) (off : Nat),
      (∀ b : Byte, s.readByte off = some b →
        exec (.xds off) s = .next { s with res := BitVec.ofNat 32 (b.toNat % 16), err := 0 }) ∧
      (s.len < off + 1 →
        exec (.xds off) s = .next { s with err := 4, faults := s.faults ||| 0x10 })

/-- R108: the nibbles XDP and XDS return under each of the four values of `NIBBLE_MAP`, bit by bit:
bit `j` of the result is the named bit of the source byte. -/
def Obligations.NibbleMapTable : Prop :=
  ∀ (c : Config) (s : State) (off : Nat) (b : Byte), s.readByte off = some b →
    ∃ dp ds, execAt c (.xdp off) s = .next dp ∧ execAt c (.xds off) s = .next ds ∧
      dp.res.toNat < 16 ∧ ds.res.toNat < 16 ∧
      ∀ j, j < 4 →
        (c.nibbleMap = .hiLoPlain →
          dp.res.getLsbD j = b.getLsbD (4 + j) ∧ ds.res.getLsbD j = b.getLsbD j) ∧
        (c.nibbleMap = .loHiPlain →
          dp.res.getLsbD j = b.getLsbD j ∧ ds.res.getLsbD j = b.getLsbD (4 + j)) ∧
        (c.nibbleMap = .hiPlainLoRev →
          dp.res.getLsbD j = b.getLsbD (4 + j) ∧ ds.res.getLsbD j = b.getLsbD (3 - j)) ∧
        (c.nibbleMap = .loPlainHiRev →
          dp.res.getLsbD j = b.getLsbD j ∧ ds.res.getLsbD j = b.getLsbD (7 - j))

/-- R112: under every `NIBBLE_MAP` the two nibble results recover the source byte, by R112's
formulas. -/
def Obligations.NibblesRecoverTheByte : Prop :=
  ∀ (c : Config) (s dp ds : State) (off : Nat) (b : Byte), s.readByte off = some b →
    execAt c (.xdp off) s = .next dp → execAt c (.xds off) s = .next ds →
    recombine c.nibbleMap dp.res.toNat ds.res.toNat = b.toNat

/-- R111: XBIT gives the bit of weight `2^k` of the byte at `off`, or raises `WindowOutOfRange`, and
does so under every parameter setting, whatever `NIBBLE_MAP` is. -/
def Obligations.XbitReadsTheBit : Prop :=
  (∀ off k, off < 256 → k < 8 →
      decode (0x46000000#32 ||| BitVec.ofNat 32 (k * 2 ^ 8) ||| BitVec.ofNat 32 off) =
        .ok (.xbit off k)) ∧
    ∀ (s : State) (off k : Nat), k < 8 →
      (∀ b : Byte, s.readByte off = some b →
        exec (.xbit off k) s =
          .next { s with res := if b.getLsbD k = true then 1 else 0, err := 0 }) ∧
      (s.len < off + 1 →
        exec (.xbit off k) s = .next { s with err := 4, faults := s.faults ||| 0x10 }) ∧
      ∀ c : Config,
        (∀ b : Byte, s.readByte off = some b →
          execAt c (.xbit off k) s =
            .next { s with res := if b.getLsbD k = true then 1 else 0, err := 0 }) ∧
        (s.len < off + 1 →
          execAt c (.xbit off k) s = .next { s with err := 4, faults := s.faults ||| 0x10 })

/-- R34: an extractor with offset `off` and window width `w` raises `WindowOutOfRange` exactly when
`off + w > LEN`, and otherwise completes. -/
def Obligations.ExtractorsCheckTheirWindow : Prop :=
  ∀ (i : Instr) (s : State) (off w : Nat), windowOf i = some (off, w) →
    (s.len < off + w → exec i s = .next { s with err := 4, faults := s.faults ||| 0x10 }) ∧
      (off + w ≤ s.len → ∃ t, exec i s = .next t ∧ t.err = 0)

/-- R100: an extractor raises `WindowOutOfRange` by the bound check and nothing else, its result
depends on its window bytes only, it writes no BUF, V, OPC or OPP, and only XUNIT writes U. -/
def Obligations.ExtractorsReadOnlyTheirWindow : Prop :=
  ∀ (i : Instr) (s s' t t' : State) (off w : Nat), windowOf i = some (off, w) →
    exec i s = .next t →
    (t.buf = s.buf ∧ t.v = s.v ∧ t.opc = s.opc ∧ t.opp = s.opp ∧
        (i ≠ .xunit off → t.u = s.u)) ∧
      (t.err = 4 ↔ s.len < off + w) ∧ (t.err ≠ 4 → t.err = 0) ∧
      (off + w ≤ s.len → off + w ≤ s'.len →
        (∀ j, j < w → s.readByte (off + j) = s'.readByte (off + j)) →
        exec i s' = .next t' → t.res = t'.res ∧ (i = .xunit off → t.u = t'.u))

/-! ### Errors, flags and frames of every command -/

/-- R124: a command, or a word that is none, that raises writes ERR and one bit of FAULTS, VERIFY also
`V <- 0`, and changes nothing else. -/
def Obligations.ErrorsArePrecise : Prop :=
  (∀ (i : Instr) (s t : State), exec i s = .next t → t.err ≠ 0 →
    ∃ k : ErrorKind, t =
      { s with
        err := BitVec.ofNat 4 k.code
        faults := s.faults ||| (1 <<< k.code)
        v := if i.mnemonic = .VERIFY then false else s.v }) ∧
    ∀ (w : Word) (s t : State), presentWord w s = .next t → t.err ≠ 0 →
      ∃ k : ErrorKind, t =
        { s with
          err := BitVec.ofNat 4 k.code
          faults := s.faults ||| (1 <<< k.code)
          v := if Mnemonic.VERIFY.Matches w then false else s.v }

/-- R122: a command raises only the errors its row lists, and each of those it does raise in some
state; a word raises `IllegalCommand` exactly when it is no command, which R122's last sentence derives
from R120 and the command rules. -/
def Obligations.PossibleErrorsAreExactlyTheTable : Prop :=
  (∀ (i : Instr) (s t : State), exec i s = .next t →
      t.err = 0 ∨ ∃ k ∈ possibleErrors i, t.err = BitVec.ofNat 4 k.code) ∧
    (∀ (i : Instr) (k : ErrorKind), k ∈ possibleErrors i →
      ∃ s t : State, exec i s = .next t ∧ t.err = BitVec.ofNat 4 k.code) ∧
    ∀ (w : Word) (s t : State), presentWord w s = .next t →
      (t.err = 6 ↔ ∀ m, ¬ Mnemonic.Matches m w)

/-- R17: FAULTS keeps every bit, gains the bit of the error raised and no other, and is cleared by RST
and `rst_n` only; its reserved bits stay 0. -/
def Obligations.FaultsAreSticky : Prop :=
  (∀ (i : Instr) (s t : State), exec i s = .next t →
    (i = .rst → t.faults = 0) ∧
      (i ≠ .rst → ∀ n, t.faults.getLsbD n = true ↔
        s.faults.getLsbD n = true ∨ (t.err ≠ 0 ∧ t.err.toNat = n))) ∧
    ∀ (a : HostAction) (s t : State), hostAct a s = .next t →
      (FaultsReservedZero s → FaultsReservedZero t) ∧
        (a = .resetPulse → t.faults = 0) ∧
        ∀ w, a = .command w →
          (w = 0x01000000 → t.faults = 0) ∧
            (w ≠ 0x01000000 → ∀ n, t.faults.getLsbD n = true ↔
              s.faults.getLsbD n = true ∨ (t.err ≠ 0 ∧ t.err.toNat = n))

/-- R15: what each command does to V, U and E; and no command reads a flag: with other flags before
it, it does the same to everything but the flags. -/
def Obligations.FlagRules : Prop :=
  ∀ (i : Instr) (s t : State), exec i s = .next t →
    (i = .rst → t.v = false ∧ t.u = false) ∧
      (bufEffect i ≠ .keeps → t.err = 0 → t.v = false) ∧
      (bufEffect i ≠ .keeps → t.err ≠ 0 → t.v = s.v) ∧
      (bufEffect i = .keeps → i.mnemonic ≠ .VERIFY → t.v = s.v) ∧
      (i.mnemonic = .VERIFY → (t.v = true ↔ t.err = 0 ∧ t.res = 1)) ∧
      (t.buf ≠ s.buf → t.v = false) ∧
      (i.mnemonic ≠ .XUNIT → i ≠ .rst → t.u = s.u) ∧
      (i.mnemonic = .XUNIT → t.err = 0 → (t.u = true ↔ t.res ≠ 0)) ∧
      (i.mnemonic = .XUNIT → t.err ≠ 0 → t.u = s.u) ∧
      (t.e = true ↔ t.err ≠ 0) ∧
      ∀ v u : Bool, ∃ t', exec i { s with v := v, u := u } = .next t' ∧
        t' = { t with v := t'.v, u := t'.u }

/-- R33: the commands whose row writes no byte of BUF leave every byte as it reads. -/
def Obligations.NonStoringCommandsKeepEveryByte : Prop :=
  ∀ (i : Instr) (s t : State), bufEffect i = .keeps → exec i s = .next t → SameBytes s t

/-- R33: BPUSH and BPUSHR store one byte, at the append address, or none; every other byte reads as
before. -/
def Obligations.AppendingCommandsKeepEveryOtherByte : Prop :=
  ∀ (i : Instr) (s t : State), bufEffect i = .appends → exec i s = .next t →
    (∀ a, a ≠ appendAddress s → t.readByte a = s.readByte a) ∧
      (t.err = 0 → t.len = s.len + 1) ∧ (t.err ≠ 0 → SameBytes s t)

/-- R12, R18 and the table of spec/10_state.md section 1: a command that is not listed as a writer of
RES or of an operand register leaves it, a command that raises leaves all of them, and no command
touches the host's queue (log entry 2). -/
def Obligations.RegistersChangeOnlyByTheirWriters : Prop :=
  ∀ (i : Instr) (s t : State), exec i s = .next t →
    (writesRes i = false ∨ t.err ≠ 0 → t.res = s.res) ∧
      (∀ sel, writesOperand sel i = false ∨ t.err ≠ 0 → getOperand sel t = getOperand sel s) ∧
      t.pending = s.pending

/-- R129 on R9's runs: after a run of command words without RST, illegal words among them, FAULTS
names every error kind raised during the run and those recorded before it, and no other. -/
def Obligations.FaultsNameTheErrorsOfTheRun : Prop :=
  ∀ (words : List Word) (s t : State), 0x01000000 ∉ words → runWords words s = .next t →
    ∀ n, t.faults.getLsbD n = true ↔
      s.faults.getLsbD n = true ∨
        ∃ before w after u v, words = before ++ w :: after ∧ runWords before s = .next u ∧
          presentWord w u = .next v ∧ v.err ≠ 0 ∧ v.err.toNat = n

/-! ### Invariants and parameters -/

/-- The invariant holds after reset. -/
def Obligations.ResetMeetsTheInvariant : Prop :=
  State.reset.Inv Config.hardware

/-- Every step keeps the invariant: BUF and the operands within their capacities, ERR a legal code
recorded in FAULTS, FAULTS' reserved bits 0, RES below `2^26`, and `V = 1` only over bytes that
verify. -/
def Obligations.EveryStepKeepsTheInvariant : Prop :=
  ∀ s t : State, s.Inv Config.hardware → step s = .next t → t.Inv Config.hardware

/-- R4, R5: the same of every command of a block built with any legal parameters; BUILD never
overflows BUF. -/
def Obligations.EveryLegalBlockKeepsTheInvariant : Prop :=
  ∀ (c : Config) (i : Instr) (s t : State), c.Legal → s.Inv c → execAt c i s = .next t → t.Inv c

/-- R4: this hardware is the block built with the default parameters, which are legal. -/
def Obligations.HardwareIsTheDefaultBlock : Prop :=
  Config.hardware = { bufCap := 64, opndCap := 8, verifyMinLen := 5, nibbleMap := .hiLoPlain } ∧
    Config.hardware.Legal ∧ ∀ (i : Instr) (s : State), exec i s = execAt Config.hardware i s

/-! ### Notation for programs -/

/-- R62: the example lines of the assembler syntax and their words. -/
def Obligations.AssemblerExamples : Prop :=
  (assembleLine Config.hardware ['C', 'S', 'U', 'M', ' ', '0', ',', ' ', '-', '1']).map
      (List.map encode) = some [0x2000FFFF] ∧
    (assembleLine Config.hardware ['V', 'E', 'R', 'I', 'F', 'Y', ' ', '0', ',', ' ', '1']).map
      (List.map encode) = some [0x21020000] ∧
    (assembleLine Config.hardware
      ['O', 'P', 'S', 'E', 'T', ' ', 'C', ',', ' ', 'I', 'N', 'T']).map
      (List.map encode) = some [0x30000000] ∧
    (assembleLine Config.hardware
      ['O', 'P', 'P', 'U', 'S', 'H', ' ', 'P', ',', ' ', '0', 'x', '4', '1']).map
      (List.map encode) = some [0x31000141] ∧
    (assembleLine Config.hardware ['B', 'U', 'I', 'L', 'D', ' ', '1']).map
      (List.map encode) = some [0x32000001] ∧
    (assembleLine Config.hardware ['X', 'B', 'I', 'T', ' ', '6', ',', ' ', '7']).map
      (List.map encode) = some [0x46000706]

/-- R63: `OPI sel, v` stages the minimal bytes of `v` under INT and changes nothing else; `LOADF`
leaves exactly its bytes in BUF. -/
def Obligations.PseudoInstructionsLoadTheirOperands : Prop :=
  (∀ (s : State) (sel : OperandSel) (v : Nat), v < 256 ^ 8 →
      ∃ b, runInstrs (Pseudo.expand Config.hardware (.opi sel v)) s =
          .next (complete (putOperand sel { tag := .int, bytes := b } s)) ∧
        beValue b = v ∧ b.length = max 1 ((Nat.size v + 7) / 8)) ∧
    ∀ (s : State) (f : List Byte), f.length ≤ 64 →
      runInstrs (Pseudo.expand Config.hardware (.loadf f)) s =
        .next { s with buf := f, v := false, err := 0 }
end

