-- ==== Sys2Proof/Laws/Arith.lean ====
section
/-! SUPPORT. The pure functions: sums, checksum, big-endian values, operand encoding, nibbles. -/

namespace Sys2Proof.Machine

@[simp] theorem sumBytes_nil : sumBytes [] = 0 := rfl
@[simp] theorem sumBytes_cons (b : Byte) (l : List Byte) :
    sumBytes (b :: l) = b.toNat + sumBytes l := rfl
@[simp] theorem sumBytes_append (a b : List Byte) :
    sumBytes (a ++ b) = sumBytes a + sumBytes b := by
  induction a with
  | nil => simp
  | cons x a ih => simp [ih, Nat.add_assoc]

/-- The order of the bytes does not matter to their sum. -/
theorem sumBytes_perm {a b : List Byte} (h : a.Perm b) : sumBytes a = sumBytes b := by
  induction h with
  | nil => rfl
  | cons x _ ih => simp [ih]
  | swap x y l => simp; omega
  | trans _ _ ih₁ ih₂ => exact ih₁.trans ih₂

/-- R82's value as an integer. -/
theorem checksumOf_toNat (l : List Byte) :
    (checksumOf l).toNat = (256 - sumBytes l % 256) % 256 := by
  have := Nat.mod_lt (sumBytes l) (by omega : 256 > 0)
  simp only [checksumOf, BitVec.toNat_ofNat]
  omega

/-- A byte is the checksum of a range exactly when it completes the range's sum to 0. -/
theorem checksumOf_eq_iff (l : List Byte) (b : Byte) :
    checksumOf l = b ↔ (sumBytes l + b.toNat) % 256 = 0 := by
  rw [← BitVec.toNat_inj, checksumOf_toNat]
  have := b.isLt
  omega

theorem slice_length_le (d : List Byte) (a : Nat) (b : Int) : (slice d a b).length ≤ d.length := by
  simp [slice]

/-- A slice up to the end drops the bytes before its start. -/
theorem slice_full (d : List Byte) (a : Nat) : slice d a (d.length : Int) = d.drop a := by
  simp [slice]

/-- A slice that ends at or before its start is empty. -/
theorem slice_eq_nil (d : List Byte) {a : Nat} {b : Int} (h : b ≤ a) : slice d a b = [] := by
  simp [slice]; omega

theorem rangeEnd_zero (n : Nat) (ifb : Bool) : rangeEnd n ifb 0 = n := by simp [rangeEnd]

theorem selectedRange_zero (d : List Byte) (ifb : Bool) :
    selectedRange d ifb 0 = d.drop (rangeStart ifb) := by
  rw [selectedRange, rangeEnd_zero, slice_full]

/-- What `cks` answers, R80 to R82. -/
theorem cks_ok_iff {d : List Byte} {ifb : Bool} {len : Int} {k : Byte} :
    cks d ifb len = .ok k ↔ 4 ≤ d.length ∧ k = checksumOf (selectedRange d ifb len) := by
  unfold cks
  split
  · simp; omega
  · simp [eq_comm]; omega

theorem cks_error_iff {d : List Byte} {ifb : Bool} {len : Int} {e : ErrorKind} :
    cks d ifb len = .error e ↔ d.length < 4 ∧ e = .invalidInput := by
  unfold cks
  split <;> simp [*, eq_comm]

/-- R86 as a sum: a buffer that ends in `k` matches exactly when its whole sum from the start is 0. -/
theorem verifyMatch_concat (f : List Byte) (k : Byte) (ifb : Bool) :
    verifyMatch (f ++ [k]) ifb = decide (checksumOf (f.drop (rangeStart ifb)) = k) := by
  simp [verifyMatch, slice]

theorem be16_lt (hi lo : Byte) : be16 hi lo < 65536 := by
  have := hi.isLt
  have := lo.isLt
  simp only [be16]
  omega

@[simp] theorem beValue_nil : beValue [] = 0 := rfl
theorem beValue_cons (b : Byte) (l : List Byte) :
    beValue (b :: l) = b.toNat * 256 ^ l.length + beValue l := rfl

theorem beValue_concat (l : List Byte) (b : Byte) : beValue (l ++ [b]) = 256 * beValue l + b.toNat := by
  induction l with
  | nil => simp [beValue_cons]
  | cons x l ih => simp [beValue_cons, ih, pow_succ]; ring

theorem beValue_lt (l : List Byte) : beValue l < 256 ^ l.length := by
  induction l with
  | nil => simp
  | cons x l ih =>
    have := x.isLt
    simp only [beValue_cons, List.length_cons, pow_succ]
    nlinarith

@[simp] theorem beBytes_length (n v : Nat) : (beBytes n v).length = n := by
  induction n generalizing v with
  | zero => rfl
  | succ n ih => simp [beBytes, ih]

theorem beValue_beBytes (n v : Nat) : beValue (beBytes n v) = v % 256 ^ n := by
  induction n generalizing v with
  | zero => simp [beBytes, Nat.mod_one]
  | succ n ih =>
    have h8 : v % 256 % 2 ^ 8 = v % 256 := Nat.mod_eq_of_lt (by omega)
    have hp : 256 ^ (n + 1) = 256 * 256 ^ n := Nat.pow_succ'
    rw [beBytes, beValue_concat, ih, BitVec.toNat_ofNat, h8, hp, Nat.mod_mul]
    omega

theorem stripLeadingZeros_length_le (b : List Byte) : (stripLeadingZeros b).length ≤ b.length := by
  induction b with
  | nil => simp [stripLeadingZeros]
  | cons x b ih =>
    simp only [stripLeadingZeros]
    split
    · simp only [List.length_cons]; omega
    · exact Nat.le_refl _

theorem stripLeadingZeros_head (b : List Byte) : (stripLeadingZeros b).head? ≠ some 0 := by
  induction b with
  | nil => simp [stripLeadingZeros]
  | cons x b ih =>
    simp only [stripLeadingZeros]
    split
    · exact ih
    · simpa

theorem beValue_stripLeadingZeros (b : List Byte) : beValue (stripLeadingZeros b) = beValue b := by
  induction b with
  | nil => rfl
  | cons x b ih =>
    simp only [stripLeadingZeros]
    split
    · rename_i h; simp [beValue_cons, h, ih]
    · rfl

theorem minimalInt_eq (b : List Byte) :
    minimalInt b = if stripLeadingZeros b = [] then [0] else stripLeadingZeros b := by
  unfold minimalInt
  split <;> simp_all

theorem minimalInt_ne_nil (b : List Byte) : minimalInt b ≠ [] := by
  rw [minimalInt_eq]; split <;> simp_all

theorem beValue_minimalInt (b : List Byte) : beValue (minimalInt b) = beValue b := by
  rw [minimalInt_eq, ← beValue_stripLeadingZeros b]
  split
  · rename_i h; simp [h, beValue_cons]
  · rfl

theorem minimalInt_length_le (b : List Byte) : (minimalInt b).length ≤ max 1 b.length := by
  have := stripLeadingZeros_length_le b
  rw [minimalInt_eq]
  split
  · simp
  · omega

theorem unitIndex_lt (b : Byte) : unitIndex b < 4 := by
  unfold unitIndex
  repeat' split
  all_goals omega

theorem rev4_lt (x : Nat) : rev4 x < 16 := by simp only [rev4]; omega

/-- The four bits reversed twice are the four bits (R112). -/
theorem rev4_rev4 {x : Nat} (h : x < 16) : rev4 (rev4 x) = x := by
  have all : ∀ y : Fin 16, rev4 (rev4 y.val) = y.val := by decide
  exact all ⟨x, h⟩

theorem highNibble_lt (b : Byte) : highNibble b < 16 := by
  have := b.isLt; simp only [highNibble]; omega

theorem lowNibble_lt (b : Byte) : lowNibble b < 16 := by simp only [lowNibble]; omega

theorem decimalPlaces_lt (m : NibbleMap) (b : Byte) : decimalPlaces m b < 16 := by
  cases m <;> simp only [decimalPlaces, highNibble_lt, lowNibble_lt]

theorem dataSign_lt (m : NibbleMap) (b : Byte) : dataSign m b < 16 := by
  cases m <;> simp only [dataSign, highNibble_lt, lowNibble_lt, rev4_lt]

theorem bitOf_lt (b : Byte) (k : Nat) : bitOf b k < 2 := by simp only [bitOf]; omega

/-- R104's two fields do not overlap, so RES is their sum. -/
theorem centiResult_toNat {raw : Nat} (h : raw < 65536) :
    (centiResult raw).toNat = raw / 100 * 65536 + raw % 100 := by
  have hq : raw / 100 < 656 := by omega
  have hr : raw % 100 < 100 := by omega
  simp only [centiResult, BitVec.toNat_or, BitVec.toNat_shiftLeft, BitVec.toNat_ofNat]
  rw [Nat.mod_eq_of_lt (by omega : raw / 100 < 2 ^ 32),
    Nat.mod_eq_of_lt (by omega : raw % 100 < 2 ^ 32),
    Nat.mod_eq_of_lt (by rw [Nat.shiftLeft_eq]; omega)]
  rw [← Nat.shiftLeft_add_eq_or_of_lt (by omega : raw % 100 < 2 ^ 16), Nat.shiftLeft_eq]

end Sys2Proof.Machine
end

