-- ==== Sys2Proof/Laws/Decode.lean ====
section
/-! SUPPORT. Fields of command words: what `bits` reads from a word made of its parts. -/

namespace Sys2Proof

theorem bits_lt (w : Word) (hi lo : Nat) : bits w hi lo < 2 ^ (hi + 1 - lo) :=
  Nat.mod_lt _ (Nat.two_pow_pos _)

/-- A word is its opcode and its operand bits. -/
theorem word_eq_mkWord (w : Word) : mkWord (bits w 31 24) (bits w 23 0) = w := by
  apply BitVec.eq_of_toNat_eq
  have := w.isLt
  simp only [mkWord, bits, BitVec.toNat_ofNat]
  omega

/-- A field below the opcode of a word made from an opcode and operand bits. -/
theorem bits_mkWord {op x hi lo : Nat} (hop : op < 256) (hx : x < 2 ^ 24) (hhi : hi < 24)
    (hlo : lo ≤ hi) : bits (mkWord op x) hi lo = x / 2 ^ lo % 2 ^ (hi + 1 - lo) := by
  have hd : 2 ^ lo * 2 ^ (24 - lo) = 2 ^ 24 := by rw [← pow_add]; congr 1; omega
  have he : 2 ^ (hi + 1 - lo) * 2 ^ (23 - hi) = 2 ^ (24 - lo) := by rw [← pow_add]; congr 1; omega
  have hn : op * 2 ^ 24 + x < 2 ^ 32 := by omega
  simp only [bits, mkWord, BitVec.toNat_ofNat]
  rw [Nat.mod_eq_of_lt hn, ← hd, Nat.mul_comm (2 ^ lo), ← Nat.mul_assoc, Nat.add_comm,
    Nat.add_mul_div_right _ _ (Nat.two_pow_pos lo), ← he, Nat.mul_comm (2 ^ (hi + 1 - lo)),
    ← Nat.mul_assoc, Nat.add_mul_mod_self_right]

/-- A field of a masked word is the masked field. -/
theorem bits_and (v w : Word) (hi lo : Nat) :
    bits (v &&& w) hi lo = bits v hi lo &&& bits w hi lo := by
  simp only [bits, BitVec.toNat_and, ← Nat.shiftRight_eq_div_pow, Nat.shiftRight_and_distrib,
    Nat.and_mod_two_pow]

/-- A field under a mask that covers it is the field. -/
theorem bits_and_ones (w m : Word) {hi lo : Nat} (h : bits m hi lo = 2 ^ (hi + 1 - lo) - 1) :
    bits (w &&& m) hi lo = bits w hi lo := by
  rw [bits_and, h, Nat.and_two_pow_sub_one_eq_mod, Nat.mod_eq_of_lt (bits_lt w hi lo)]

/-- A field under a mask that leaves it out is 0. -/
theorem bits_and_zeros (w m : Word) {hi lo : Nat} (h : bits m hi lo = 0) :
    bits (w &&& m) hi lo = 0 := by
  rw [bits_and, h, Nat.and_zero]

/-- The opcode of a word made from an opcode and operand bits. -/
theorem opcode_mkWord {op x : Nat} (hop : op < 256) (hx : x < 2 ^ 24) :
    bits (mkWord op x) 31 24 = op := by
  simp only [bits, mkWord, BitVec.toNat_ofNat]
  omega

/-- The word of a row's opcode and operand bits carries the opcode of the row. -/
theorem opcode_of_word {w : Word} {x op : Nat} (m : Mnemonic) (hw : w = mkWord op x)
    (hp : bits m.pattern 31 24 = op) (hop : op < 256) (hx : x < 2 ^ 24) :
    bits w 31 24 = bits m.pattern 31 24 := by
  rw [hw, hp, opcode_mkWord hop hx]

@[simp] theorem Tag.ofCode_code (g : Tag) : Tag.ofCode g.code = g := by cases g <;> rfl
@[simp] theorem OperandSel.ofCode_code (r : OperandSel) : OperandSel.ofCode r.code = r := by
  cases r <;> rfl

theorem Tag.code_lt (g : Tag) : g.code < 4 := by cases g <;> decide
theorem OperandSel.code_lt (r : OperandSel) : r.code < 2 := by cases r <;> decide

theorem Tag.code_ofCode {v : Nat} (h : v < 4) : (Tag.ofCode v).code = v := by
  have all : ∀ x : Fin 4, (Tag.ofCode x.val).code = x.val := by decide
  exact all ⟨v, h⟩

theorem OperandSel.code_ofCode {v : Nat} (h : v < 2) : (OperandSel.ofCode v).code = v := by
  have all : ∀ x : Fin 2, (OperandSel.ofCode x.val).code = x.val := by decide
  exact all ⟨v, h⟩

/-- `len mod 65536` and `sext_16` are inverse on the 16-bit signed range (R53). -/
theorem sext16_emod {len : Int} (h₀ : -32768 ≤ len) (h₁ : len ≤ 32767) :
    sext16 (len % 65536).toNat = len := by
  unfold sext16
  split <;> omega

theorem emod_sext16 {v : Nat} (h : v < 65536) : (sext16 v % 65536).toNat = v := by
  unfold sext16
  split <;> omega

theorem sext16_range {v : Nat} (h : v < 65536) : -32768 ≤ sext16 v ∧ sext16 v ≤ 32767 := by
  unfold sext16
  split <;> omega

/-- A one-bit field and its Boolean are one value. -/
theorem flagAt_toNat (w : Word) (i : Nat) : (flagAt w i).toNat = bits w i i := by
  have h := bits_lt w i i
  rw [Nat.add_sub_cancel_left] at h
  unfold flagAt
  by_cases hb : bits w i i = 1
  · simp [hb]
  · simp only [hb, decide_false, Bool.toNat_false]; omega

/-- The reserved-bit check passes exactly on 0. -/
theorem checkReserved_ok_iff {op r : Nat} {i j : Instr} :
    checkReserved op r i = .ok j ↔ r = 0 ∧ i = j := by
  unfold checkReserved
  split <;> simp [*]

theorem checkReserved_error_iff {op r : Nat} {i : Instr} {e : IllegalWord} :
    checkReserved op r i = .error e ↔ r ≠ 0 ∧ e = .reservedBitSet op := by
  unfold checkReserved
  split <;> simp [*, eq_comm]

end Sys2Proof
end

