-- ==== Sys2Proof/Laws/State.lean ====
section
/-! SUPPORT. One lemma per field of State per update, so that no later proof unfolds an update. -/

namespace Sys2Proof.Machine

@[simp] theorem raise_buf (k : ErrorKind) (s : State) : (raise k s).buf = s.buf := rfl
@[simp] theorem raise_res (k : ErrorKind) (s : State) : (raise k s).res = s.res := rfl
@[simp] theorem raise_err (k : ErrorKind) (s : State) : (raise k s).err = BitVec.ofNat 4 k.code := rfl
@[simp] theorem raise_faults (k : ErrorKind) (s : State) : (raise k s).faults = s.faults ||| k.faultBit := rfl
@[simp] theorem raise_v (k : ErrorKind) (s : State) : (raise k s).v = s.v := rfl
@[simp] theorem raise_u (k : ErrorKind) (s : State) : (raise k s).u = s.u := rfl
@[simp] theorem raise_opc (k : ErrorKind) (s : State) : (raise k s).opc = s.opc := rfl
@[simp] theorem raise_opp (k : ErrorKind) (s : State) : (raise k s).opp = s.opp := rfl
@[simp] theorem raise_pending (k : ErrorKind) (s : State) : (raise k s).pending = s.pending := rfl
@[simp] theorem raise_len (k : ErrorKind) (s : State) : (raise k s).len = s.len := rfl
@[simp] theorem raise_readByte (k : ErrorKind) (s : State) (i : Nat) :
    (raise k s).readByte i = s.readByte i := rfl

@[simp] theorem complete_buf (s : State) : (complete s).buf = s.buf := rfl
@[simp] theorem complete_res (s : State) : (complete s).res = s.res := rfl
@[simp] theorem complete_err (s : State) : (complete s).err = 0 := rfl
@[simp] theorem complete_faults (s : State) : (complete s).faults = s.faults := rfl
@[simp] theorem complete_v (s : State) : (complete s).v = s.v := rfl
@[simp] theorem complete_u (s : State) : (complete s).u = s.u := rfl
@[simp] theorem complete_opc (s : State) : (complete s).opc = s.opc := rfl
@[simp] theorem complete_opp (s : State) : (complete s).opp = s.opp := rfl
@[simp] theorem complete_pending (s : State) : (complete s).pending = s.pending := rfl
@[simp] theorem complete_len (s : State) : (complete s).len = s.len := rfl
@[simp] theorem complete_readByte (s : State) (i : Nat) :
    (complete s).readByte i = s.readByte i := rfl

@[simp] theorem setRes_buf (x : Word) (s : State) : (setRes x s).buf = s.buf := rfl
@[simp] theorem setRes_res (x : Word) (s : State) : (setRes x s).res = x := rfl
@[simp] theorem setRes_err (x : Word) (s : State) : (setRes x s).err = s.err := rfl
@[simp] theorem setRes_faults (x : Word) (s : State) : (setRes x s).faults = s.faults := rfl
@[simp] theorem setRes_v (x : Word) (s : State) : (setRes x s).v = s.v := rfl
@[simp] theorem setRes_u (x : Word) (s : State) : (setRes x s).u = s.u := rfl
@[simp] theorem setRes_opc (x : Word) (s : State) : (setRes x s).opc = s.opc := rfl
@[simp] theorem setRes_opp (x : Word) (s : State) : (setRes x s).opp = s.opp := rfl
@[simp] theorem setRes_pending (x : Word) (s : State) : (setRes x s).pending = s.pending := rfl
@[simp] theorem setRes_len (x : Word) (s : State) : (setRes x s).len = s.len := rfl
@[simp] theorem setRes_readByte (x : Word) (s : State) (i : Nat) :
    (setRes x s).readByte i = s.readByte i := rfl

@[simp] theorem setV_buf (b : Bool) (s : State) : (setV b s).buf = s.buf := rfl
@[simp] theorem setV_res (b : Bool) (s : State) : (setV b s).res = s.res := rfl
@[simp] theorem setV_err (b : Bool) (s : State) : (setV b s).err = s.err := rfl
@[simp] theorem setV_faults (b : Bool) (s : State) : (setV b s).faults = s.faults := rfl
@[simp] theorem setV_v (b : Bool) (s : State) : (setV b s).v = b := rfl
@[simp] theorem setV_u (b : Bool) (s : State) : (setV b s).u = s.u := rfl
@[simp] theorem setV_opc (b : Bool) (s : State) : (setV b s).opc = s.opc := rfl
@[simp] theorem setV_opp (b : Bool) (s : State) : (setV b s).opp = s.opp := rfl
@[simp] theorem setV_pending (b : Bool) (s : State) : (setV b s).pending = s.pending := rfl
@[simp] theorem setV_len (b : Bool) (s : State) : (setV b s).len = s.len := rfl
@[simp] theorem setV_readByte (b : Bool) (s : State) (i : Nat) :
    (setV b s).readByte i = s.readByte i := rfl

@[simp] theorem setU_buf (b : Bool) (s : State) : (setU b s).buf = s.buf := rfl
@[simp] theorem setU_res (b : Bool) (s : State) : (setU b s).res = s.res := rfl
@[simp] theorem setU_err (b : Bool) (s : State) : (setU b s).err = s.err := rfl
@[simp] theorem setU_faults (b : Bool) (s : State) : (setU b s).faults = s.faults := rfl
@[simp] theorem setU_v (b : Bool) (s : State) : (setU b s).v = s.v := rfl
@[simp] theorem setU_u (b : Bool) (s : State) : (setU b s).u = b := rfl
@[simp] theorem setU_opc (b : Bool) (s : State) : (setU b s).opc = s.opc := rfl
@[simp] theorem setU_opp (b : Bool) (s : State) : (setU b s).opp = s.opp := rfl
@[simp] theorem setU_pending (b : Bool) (s : State) : (setU b s).pending = s.pending := rfl
@[simp] theorem setU_len (b : Bool) (s : State) : (setU b s).len = s.len := rfl
@[simp] theorem setU_readByte (b : Bool) (s : State) (i : Nat) :
    (setU b s).readByte i = s.readByte i := rfl

@[simp] theorem replaceBuf_buf (f : List Byte) (s : State) : (replaceBuf f s).buf = f := rfl
@[simp] theorem replaceBuf_res (f : List Byte) (s : State) : (replaceBuf f s).res = s.res := rfl
@[simp] theorem replaceBuf_err (f : List Byte) (s : State) : (replaceBuf f s).err = s.err := rfl
@[simp] theorem replaceBuf_faults (f : List Byte) (s : State) : (replaceBuf f s).faults = s.faults := rfl
@[simp] theorem replaceBuf_v (f : List Byte) (s : State) : (replaceBuf f s).v = false := rfl
@[simp] theorem replaceBuf_u (f : List Byte) (s : State) : (replaceBuf f s).u = s.u := rfl
@[simp] theorem replaceBuf_opc (f : List Byte) (s : State) : (replaceBuf f s).opc = s.opc := rfl
@[simp] theorem replaceBuf_opp (f : List Byte) (s : State) : (replaceBuf f s).opp = s.opp := rfl
@[simp] theorem replaceBuf_pending (f : List Byte) (s : State) : (replaceBuf f s).pending = s.pending := rfl

@[simp] theorem takeAction_buf (s : State) : (takeAction s).buf = s.buf := rfl
@[simp] theorem takeAction_res (s : State) : (takeAction s).res = s.res := rfl
@[simp] theorem takeAction_err (s : State) : (takeAction s).err = s.err := rfl
@[simp] theorem takeAction_faults (s : State) : (takeAction s).faults = s.faults := rfl
@[simp] theorem takeAction_v (s : State) : (takeAction s).v = s.v := rfl
@[simp] theorem takeAction_u (s : State) : (takeAction s).u = s.u := rfl
@[simp] theorem takeAction_opc (s : State) : (takeAction s).opc = s.opc := rfl
@[simp] theorem takeAction_opp (s : State) : (takeAction s).opp = s.opp := rfl
@[simp] theorem takeAction_pending (s : State) : (takeAction s).pending = s.pending.tail := rfl
@[simp] theorem takeAction_len (s : State) : (takeAction s).len = s.len := rfl
@[simp] theorem takeAction_readByte (s : State) (i : Nat) :
    (takeAction s).readByte i = s.readByte i := rfl

@[simp] theorem resetBlock_buf (s : State) : (resetBlock s).buf = [] := rfl
@[simp] theorem resetBlock_res (s : State) : (resetBlock s).res = 0 := rfl
@[simp] theorem resetBlock_err (s : State) : (resetBlock s).err = 0 := rfl
@[simp] theorem resetBlock_faults (s : State) : (resetBlock s).faults = 0 := rfl
@[simp] theorem resetBlock_v (s : State) : (resetBlock s).v = false := rfl
@[simp] theorem resetBlock_u (s : State) : (resetBlock s).u = false := rfl
@[simp] theorem resetBlock_opc (s : State) : (resetBlock s).opc = Operand.unset := rfl
@[simp] theorem resetBlock_opp (s : State) : (resetBlock s).opp = Operand.unset := rfl
@[simp] theorem resetBlock_pending (s : State) : (resetBlock s).pending = s.pending := rfl

@[simp] theorem replaceBuf_len (f : List Byte) (s : State) : (replaceBuf f s).len = f.length := rfl
@[simp] theorem replaceBuf_readByte (f : List Byte) (s : State) (i : Nat) :
    (replaceBuf f s).readByte i = f[i]? := rfl

@[simp] theorem putOperand_buf (r : OperandSel) (o : Operand) (s : State) :
    (putOperand r o s).buf = s.buf := by cases r <;> rfl
@[simp] theorem putOperand_res (r : OperandSel) (o : Operand) (s : State) :
    (putOperand r o s).res = s.res := by cases r <;> rfl
@[simp] theorem putOperand_err (r : OperandSel) (o : Operand) (s : State) :
    (putOperand r o s).err = s.err := by cases r <;> rfl
@[simp] theorem putOperand_faults (r : OperandSel) (o : Operand) (s : State) :
    (putOperand r o s).faults = s.faults := by cases r <;> rfl
@[simp] theorem putOperand_v (r : OperandSel) (o : Operand) (s : State) :
    (putOperand r o s).v = s.v := by cases r <;> rfl
@[simp] theorem putOperand_u (r : OperandSel) (o : Operand) (s : State) :
    (putOperand r o s).u = s.u := by cases r <;> rfl
@[simp] theorem putOperand_pending (r : OperandSel) (o : Operand) (s : State) :
    (putOperand r o s).pending = s.pending := by cases r <;> rfl
@[simp] theorem putOperand_len (r : OperandSel) (o : Operand) (s : State) :
    (putOperand r o s).len = s.len := by cases r <;> rfl
@[simp] theorem putOperand_readByte (r : OperandSel) (o : Operand) (s : State) (i : Nat) :
    (putOperand r o s).readByte i = s.readByte i := by cases r <;> rfl
@[simp] theorem putOperand_opc_opc (o : Operand) (s : State) : (putOperand .opc o s).opc = o := rfl
@[simp] theorem putOperand_opc_opp (o : Operand) (s : State) : (putOperand .opc o s).opp = s.opp := rfl
@[simp] theorem putOperand_opp_opc (o : Operand) (s : State) : (putOperand .opp o s).opc = s.opc := rfl
@[simp] theorem putOperand_opp_opp (o : Operand) (s : State) : (putOperand .opp o s).opp = o := rfl
@[simp] theorem getOperand_opc (s : State) : getOperand .opc s = s.opc := rfl
@[simp] theorem getOperand_opp (s : State) : getOperand .opp s = s.opp := rfl

/-- Reading back the operand register just written. -/
@[simp] theorem getOperand_putOperand (r : OperandSel) (o : Operand) (s : State) :
    getOperand r (putOperand r o s) = o := by cases r <;> rfl

/-- The other operand register is untouched. -/
theorem getOperand_putOperand_ne {r q : OperandSel} (h : r ≠ q) (o : Operand) (s : State) :
    getOperand q (putOperand r o s) = getOperand q s := by
  cases r <;> cases q <;> first | rfl | exact absurd rfl h

/-- Writing one operand register twice keeps the second value. -/
@[simp] theorem putOperand_putOperand (r : OperandSel) (o p : Operand) (s : State) :
    putOperand r p (putOperand r o s) = putOperand r p s := by cases r <;> rfl

@[simp] theorem putOperand_complete (r : OperandSel) (o : Operand) (s : State) :
    putOperand r o (complete s) = complete (putOperand r o s) := by cases r <;> rfl
@[simp] theorem complete_complete (s : State) : complete (complete s) = complete s := rfl
@[simp] theorem getOperand_complete (r : OperandSel) (s : State) :
    getOperand r (complete s) = getOperand r s := by cases r <;> rfl
@[simp] theorem getOperand_raise (r : OperandSel) (k : ErrorKind) (s : State) :
    getOperand r (raise k s) = getOperand r s := by cases r <;> rfl
@[simp] theorem getOperand_setRes (r : OperandSel) (x : Word) (s : State) :
    getOperand r (setRes x s) = getOperand r s := by cases r <;> rfl
@[simp] theorem getOperand_setV (r : OperandSel) (b : Bool) (s : State) :
    getOperand r (setV b s) = getOperand r s := by cases r <;> rfl
@[simp] theorem getOperand_setU (r : OperandSel) (b : Bool) (s : State) :
    getOperand r (setU b s) = getOperand r s := by cases r <;> rfl
@[simp] theorem getOperand_replaceBuf (r : OperandSel) (f : List Byte) (s : State) :
    getOperand r (replaceBuf f s) = getOperand r s := by cases r <;> rfl

end Sys2Proof.Machine
end

