-- ==== Sys2Proof/Laws/Ops.lean ====
section
/-! SUPPORT. What each shared operation over the state can do, said once. -/

namespace Sys2Proof.Machine

theorem readByte_eq_some_iff {s : State} {i : Nat} {b : Byte} :
    s.readByte i = some b ↔ ∃ h : i < s.buf.length, s.buf[i] = b := by
  simp [State.readByte, List.getElem?_eq_some_iff]

/-- No byte exists at an index at or beyond LEN (R10). -/
theorem readByte_eq_none_iff {s : State} {i : Nat} : s.readByte i = none ↔ s.len ≤ i := by
  simp [State.readByte, State.len]

/-- R34 for a 1-byte window: the byte at `off`, there exactly when `off + 1 <= LEN`. -/
theorem window1_eq (s : State) (off : Nat) : window1 s off = s.readByte off := by
  by_cases hl : off + 1 ≤ s.buf.length
  · have hd : (s.buf.drop off).take 1 = [s.buf[off]] := by
      rw [List.drop_eq_getElem_cons (by omega)]; rfl
    have hm : memRead s off 1 = some [s.buf[off]] := by rw [← hd]; exact if_pos hl
    rw [window1, hm, State.readByte, List.getElem?_eq_getElem (by omega)]
  · have hm : memRead s off 1 = none := if_neg hl
    rw [window1, hm, State.readByte, List.getElem?_eq_none (by omega)]

/-- R34 for a 2-byte window: both bytes, there exactly when `off + 2 <= LEN`. -/
theorem window2_eq (s : State) (off : Nat) :
    window2 s off =
      match s.readByte off, s.readByte (off + 1) with
      | some hi, some lo => some (hi, lo)
      | _, _ => none := by
  by_cases hl : off + 2 ≤ s.buf.length
  · have hd : (s.buf.drop off).take 2 = [s.buf[off], s.buf[off + 1]] := by
      rw [List.drop_eq_getElem_cons (by omega), List.drop_eq_getElem_cons (by omega)]; rfl
    have hm : memRead s off 2 = some [s.buf[off], s.buf[off + 1]] := by rw [← hd]; exact if_pos hl
    simp only [window2, hm, State.readByte]
    rw [List.getElem?_eq_getElem (by omega), List.getElem?_eq_getElem (by omega)]
  · have hm : memRead s off 2 = none := if_neg hl
    have hn : s.readByte (off + 1) = none := List.getElem?_eq_none (by omega)
    rw [window2, hm, hn]
    cases s.readByte off <;> rfl

theorem window1_none_iff {s : State} {off : Nat} : window1 s off = none ↔ s.len < off + 1 := by
  rw [window1_eq, readByte_eq_none_iff]; omega

theorem window2_none_iff {s : State} {off : Nat} : window2 s off = none ↔ s.len < off + 2 := by
  have h₀ := @readByte_eq_none_iff s off
  have h₁ := @readByte_eq_none_iff s (off + 1)
  rw [window2_eq]
  cases h : s.readByte off <;> cases h' : s.readByte (off + 1) <;> simp_all <;> omega

/-- The append below the capacity (R73, R74). -/
theorem appendByte_of_lt {c : Config} {s : State} (b : Byte) (h : s.len < c.bufCap) :
    appendByte c b s = complete (replaceBuf (s.buf ++ [b]) s) := if_pos h

/-- The append at the capacity (R35). -/
theorem appendByte_of_ge {c : Config} {s : State} (b : Byte) (h : c.bufCap ≤ s.len) :
    appendByte c b s = raise .bufferFull s := if_neg (by omega)

/-- Everything the append can do. -/
theorem appendByte_cases (c : Config) (b : Byte) (s : State) :
    (s.len < c.bufCap ∧ appendByte c b s = complete (replaceBuf (s.buf ++ [b]) s)) ∨
      (c.bufCap ≤ s.len ∧ appendByte c b s = raise .bufferFull s) := by
  by_cases h : s.len < c.bufCap
  · exact .inl ⟨h, appendByte_of_lt b h⟩
  · exact .inr ⟨by omega, appendByte_of_ge b (by omega)⟩

/-- A byte read after an append: the new byte at the append address, every other as before. -/
theorem readByte_append (s : State) (b : Byte) (i : Nat) :
    (replaceBuf (s.buf ++ [b]) s).readByte i =
      if i = appendAddress s then some b else s.readByte i := by
  rw [replaceBuf_readByte]
  by_cases h : i = appendAddress s
  · rw [if_pos h, h]; exact List.getElem?_concat_length
  · rw [if_neg h]
    by_cases hi : i < s.buf.length
    · exact List.getElem?_append_left hi
    · have hl : i ≠ s.buf.length := h
      rw [State.readByte, List.getElem?_eq_none (by simp; omega), List.getElem?_eq_none (by omega)]

/-! Every write of BUF keeps the canonical form, and reset has it. -/

theorem wf_reset (c : Config) : Memory.wf c State.reset.buf := Nat.zero_le _

theorem wf_appendByte {c : Config} {s : State} (b : Byte) (h : Memory.wf c s.buf) :
    Memory.wf c (appendByte c b s).buf := by
  obtain ⟨hl, e⟩ | ⟨_, e⟩ := appendByte_cases c b s <;> rw [e]
  · simp only [complete_buf, replaceBuf_buf, Memory.wf, List.length_append, List.length_singleton]
    exact hl
  · exact h

theorem wf_replaceBuf {c : Config} (f : List Byte) (s : State) (h : f.length ≤ c.bufCap) :
    Memory.wf c (replaceBuf f s).buf := h

theorem wf_resetBlock (c : Config) (s : State) : Memory.wf c (resetBlock s).buf := Nat.zero_le _

/-! The buffer as addressed cells (log entry 1). -/

theorem cellsFrom_map_snd (a : Nat) (m : List Byte) : (cellsFrom a m).map Prod.snd = m := by
  induction m generalizing a with
  | nil => rfl
  | cons b m ih => simp [cellsFrom, ih]

theorem cellsFrom_map_fst (a : Nat) (m : List Byte) :
    (cellsFrom a m).map Prod.fst = List.range' a m.length := by
  induction m generalizing a with
  | nil => rfl
  | cons b m ih => simp [cellsFrom, ih, List.range'_succ]

/-- The cells' addresses rise strictly from 0 without a gap. -/
theorem cells_rising (m : List Byte) : ((cellsFrom 0 m).map Prod.fst).Pairwise (· < ·) := by
  rw [cellsFrom_map_fst]
  exact List.pairwise_lt_range'

/-- Equal cells are equal buffers: the byte sequence is the canonical form itself. -/
theorem cells_injective {m n : List Byte} (h : cellsFrom 0 m = cellsFrom 0 n) : m = n := by
  rw [← cellsFrom_map_snd 0 m, h, cellsFrom_map_snd]

end Sys2Proof.Machine
end

