-- ==== Sys2Proof/Laws/Exec.lean ====
section
/-! SUPPORT. What each meaning answers, one lemma per meaning, and what every command can do. -/

namespace Sys2Proof.Machine

/-! ### One lemma per meaning -/

theorem extractByte_some {s : State} {off : Nat} {b : Byte} (f : Byte → Word)
    (h : s.readByte off = some b) : extractByte off f s = complete (setRes (f b) s) := by
  simp only [extractByte, window1_eq, h]

theorem extractByte_none {s : State} {off : Nat} (f : Byte → Word) (h : s.len < off + 1) :
    extractByte off f s = raise .windowOutOfRange s := by
  simp only [extractByte, window1_none_iff.mpr h]

theorem extractBe16_some {s : State} {off : Nat} {hi lo : Byte} (f : Nat → Word)
    (h₀ : s.readByte off = some hi) (h₁ : s.readByte (off + 1) = some lo) :
    extractBe16 off f s = complete (setRes (f (be16 hi lo)) s) := by
  simp only [extractBe16, window2_eq, h₀, h₁]

theorem extractBe16_none {s : State} {off : Nat} (f : Nat → Word) (h : s.len < off + 2) :
    extractBe16 off f s = raise .windowOutOfRange s := by
  simp only [extractBe16, window2_none_iff.mpr h]

/-- Everything a 1-byte extraction can do. -/
theorem extractByte_cases (off : Nat) (f : Byte → Word) (s : State) :
    (∃ b, s.readByte off = some b ∧ extractByte off f s = complete (setRes (f b) s)) ∨
      (s.len < off + 1 ∧ extractByte off f s = raise .windowOutOfRange s) := by
  cases h : s.readByte off with
  | some b => exact .inl ⟨b, rfl, extractByte_some f h⟩
  | none =>
    have hl : s.len < off + 1 := by have := readByte_eq_none_iff.mp h; omega
    exact .inr ⟨hl, extractByte_none f hl⟩

/-- Everything a 2-byte extraction can do. -/
theorem extractBe16_cases (off : Nat) (f : Nat → Word) (s : State) :
    (∃ hi lo, s.readByte off = some hi ∧ s.readByte (off + 1) = some lo ∧
        extractBe16 off f s = complete (setRes (f (be16 hi lo)) s)) ∨
      (s.len < off + 2 ∧ extractBe16 off f s = raise .windowOutOfRange s) := by
  cases h₁ : s.readByte (off + 1) with
  | some lo =>
    cases h₀ : s.readByte off with
    | some hi => exact .inl ⟨hi, lo, rfl, rfl, extractBe16_some f h₀ h₁⟩
    | none =>
      have hl : s.len < off + 2 := by have := readByte_eq_none_iff.mp h₀; omega
      exact .inr ⟨hl, extractBe16_none f hl⟩
  | none =>
    have hl : s.len < off + 2 := by have := readByte_eq_none_iff.mp h₁; omega
    exact .inr ⟨hl, extractBe16_none f hl⟩

/-- Everything XUNIT can do. -/
theorem execXunit_cases (off : Nat) (s : State) :
    (∃ b, s.readByte off = some b ∧ execXunit off s =
        .next (complete (setU (unitRecognised b) (setRes (BitVec.ofNat 32 (unitIndex b)) s)))) ∨
      (s.len < off + 1 ∧ execXunit off s = .next (raise .windowOutOfRange s)) := by
  cases h : s.readByte off with
  | some b => exact .inl ⟨b, rfl, by simp only [execXunit, window1_eq, h]⟩
  | none =>
    have hl : s.len < off + 1 := by have := readByte_eq_none_iff.mp h; omega
    exact .inr ⟨hl, by simp only [execXunit, window1_none_iff.mpr hl]⟩

/-- Everything CSUM can do. -/
theorem execCsum_cases (ifb : Bool) (len : Int) (s : State) :
    (4 ≤ s.len ∧ execCsum ifb len s =
        .next (complete (setRes ((checksumOf (selectedRange s.buf ifb len)).setWidth 32) s))) ∨
      (s.len < 4 ∧ execCsum ifb len s = .next (raise .invalidInput s)) := by
  unfold execCsum
  split
  · rename_i k h
    obtain ⟨hl, rfl⟩ := cks_ok_iff.mp h
    exact .inl ⟨hl, rfl⟩
  · rename_i e h
    obtain ⟨hl, rfl⟩ := cks_error_iff.mp h
    exact .inr ⟨hl, rfl⟩

/-- Everything VERIFY can do. -/
theorem execVerifyAt_cases (c : Config) (ifb t : Bool) (s : State) :
    (s.len < c.verifyMinLen ∧
        execVerifyAt c ifb t s = .next (raise .invalidInput (setV false s))) ∨
      (c.verifyMinLen ≤ s.len ∧ verifyMatch s.buf ifb = true ∧
        execVerifyAt c ifb t s = .next (complete (setRes 1 (setV true s)))) ∨
      (c.verifyMinLen ≤ s.len ∧ verifyMatch s.buf ifb = false ∧ t = false ∧
        execVerifyAt c ifb t s = .next (complete (setRes 0 (setV false s)))) ∨
      (c.verifyMinLen ≤ s.len ∧ verifyMatch s.buf ifb = false ∧ t = true ∧
        execVerifyAt c ifb t s = .next (raise .checksumMismatch (setV false s))) := by
  unfold execVerifyAt
  by_cases hl : s.len < c.verifyMinLen
  · exact .inl ⟨hl, if_pos hl⟩
  · rw [if_neg hl]
    cases hm : verifyMatch s.buf ifb <;> cases t <;> simp_all

/-- Everything OPPUSH can do. -/
theorem execOppushAt_cases (c : Config) (sel : OperandSel) (imm8 : Byte) (s : State) :
    ((getOperand sel s).bytes.length < c.opndCap ∧ execOppushAt c sel imm8 s =
        .next (complete (putOperand sel
          { tag := (getOperand sel s).tag, bytes := (getOperand sel s).bytes ++ [imm8] } s))) ∨
      (c.opndCap ≤ (getOperand sel s).bytes.length ∧
        execOppushAt c sel imm8 s = .next (raise .bufferFull s)) := by
  unfold execOppushAt
  by_cases hl : (getOperand sel s).bytes.length < c.opndCap
  · exact .inl ⟨hl, if_pos hl⟩
  · exact .inr ⟨by omega, if_neg hl⟩

theorem frameBody_length (a b : List Byte) : (frameBody a b).length = a.length + b.length + 6 := by
  simp [frameBody]; omega

/-- The body of a frame is never too short for `cks` (R92). -/
theorem cks_frameBody (a b : List Byte) :
    cks (frameBody a b) false 0 = .ok (checksumOf ((frameBody a b).drop 1)) := by
  rw [cks_ok_iff, frameBody_length, selectedRange_zero]
  exact ⟨by omega, rfl⟩

/-- Everything BUILD can do. -/
theorem execBuild_cases (dp : Bool) (s : State) :
    (∃ a b k, encOperand s.opc = some a ∧ payloadBytes dp s = some b ∧
        k = checksumOf ((frameBody a b).drop 1) ∧
        execBuild dp s =
          .next (complete (setRes (k.setWidth 32) (replaceBuf (frameBody a b ++ [k]) s)))) ∨
      ((encOperand s.opc = none ∨ payloadBytes dp s = none) ∧
        execBuild dp s = .next (raise .unsupportedType s)) := by
  cases ha : encOperand s.opc with
  | none => exact .inr ⟨.inl rfl, by simp [execBuild, ha]⟩
  | some a =>
    cases hb : payloadBytes dp s with
    | none => exact .inr ⟨.inr rfl, by simp [execBuild, ha, hb]⟩
    | some b => exact .inl ⟨a, b, _, rfl, rfl, rfl, by simp [execBuild, ha, hb, cks_frameBody]⟩

theorem encOperand_length_le {o : Operand} {m : List Byte} (h : encOperand o = some m) :
    m.length ≤ max 1 o.bytes.length := by
  unfold encOperand at h
  split at h
  · cases h; exact minimalInt_length_le _
  · cases h; omega
  · cases h
  · cases h

theorem payloadBytes_length_le {dp : Bool} {s : State} {m : List Byte}
    (h : payloadBytes dp s = some m) : m.length ≤ max 1 s.opp.bytes.length := by
  unfold payloadBytes at h
  split at h
  · cases h; simp
  · exact encOperand_length_le h

/-! ### Every command -/

/-- The hardware's commands are those of the block with its parameters. -/
theorem exec_eq_execAt (i : Instr) (s : State) : exec i s = execAt Config.hardware i s := by
  cases i <;> rfl

/-- What a command that completes without error can have done: exactly one of these forms. -/
inductive Completed (c : Config) (s : State) : Instr → State → Prop where
  | nop : Completed c s .nop (complete s)
  | rst : Completed c s .rst (resetBlock s)
  | bclr : Completed c s .bclr (complete (replaceBuf [] s))
  | bpush (b : Byte) (h : s.len < c.bufCap) :
      Completed c s (.bpush b) (complete (replaceBuf (s.buf ++ [b]) s))
  | bpushr (h : s.len < c.bufCap) :
      Completed c s .bpushr (complete (replaceBuf (s.buf ++ [BitVec.ofNat 8 s.res.toNat]) s))
  | csum (ifb : Bool) (len : Int) (h : 4 ≤ s.len) :
      Completed c s (.csum ifb len)
        (complete (setRes ((checksumOf (selectedRange s.buf ifb len)).setWidth 32) s))
  | verifyMatch (ifb t : Bool) (h : c.verifyMinLen ≤ s.len) (m : verifyMatch s.buf ifb = true) :
      Completed c s (.verify ifb t) (complete (setRes 1 (setV true s)))
  | verifyMismatch (ifb : Bool) (h : c.verifyMinLen ≤ s.len)
      (m : Machine.verifyMatch s.buf ifb = false) :
      Completed c s (.verify ifb false) (complete (setRes 0 (setV false s)))
  | opset (sel : OperandSel) (tag : Tag) :
      Completed c s (.opset sel tag) (complete (putOperand sel { tag := tag, bytes := [] } s))
  | oppush (sel : OperandSel) (b : Byte) (h : (getOperand sel s).bytes.length < c.opndCap) :
      Completed c s (.oppush sel b) (complete (putOperand sel
        { tag := (getOperand sel s).tag, bytes := (getOperand sel s).bytes ++ [b] } s))
  | build (dp : Bool) (a b : List Byte) (k : Byte) (ha : encOperand s.opc = some a)
      (hb : payloadBytes dp s = some b) (hk : k = checksumOf ((frameBody a b).drop 1)) :
      Completed c s (.build dp)
        (complete (setRes (k.setWidth 32) (replaceBuf (frameBody a b ++ [k]) s)))
  | xu8 (off : Nat) (b : Byte) (h : s.readByte off = some b) :
      Completed c s (.xu8 off) (complete (setRes (b.setWidth 32) s))
  | xu16 (off : Nat) (hi lo : Byte) (h : s.readByte off = some hi)
      (h' : s.readByte (off + 1) = some lo) :
      Completed c s (.xu16 off) (complete (setRes (BitVec.ofNat 32 (be16 hi lo)) s))
  | xcenti (off : Nat) (hi lo : Byte) (h : s.readByte off = some hi)
      (h' : s.readByte (off + 1) = some lo) :
      Completed c s (.xcenti off) (complete (setRes (centiResult (be16 hi lo)) s))
  | xunit (off : Nat) (b : Byte) (h : s.readByte off = some b) :
      Completed c s (.xunit off)
        (complete (setU (unitRecognised b) (setRes (BitVec.ofNat 32 (unitIndex b)) s)))
  | xdp (off : Nat) (b : Byte) (h : s.readByte off = some b) :
      Completed c s (.xdp off)
        (complete (setRes (BitVec.ofNat 32 (decimalPlaces c.nibbleMap b)) s))
  | xds (off : Nat) (b : Byte) (h : s.readByte off = some b) :
      Completed c s (.xds off) (complete (setRes (BitVec.ofNat 32 (dataSign c.nibbleMap b)) s))
  | xbit (off k : Nat) (b : Byte) (h : s.readByte off = some b) :
      Completed c s (.xbit off k) (complete (setRes (BitVec.ofNat 32 (bitOf b k)) s))

/-- What a command that raises can have done: the error entry of one of its kinds, after VERIFY's
`V <- 0` where it is VERIFY. -/
inductive Raised (c : Config) (s : State) : Instr → State → Prop where
  | bpush (b : Byte) (h : c.bufCap ≤ s.len) : Raised c s (.bpush b) (raise .bufferFull s)
  | bpushr (h : c.bufCap ≤ s.len) : Raised c s .bpushr (raise .bufferFull s)
  | csum (ifb : Bool) (len : Int) (h : s.len < 4) :
      Raised c s (.csum ifb len) (raise .invalidInput s)
  | verifyShort (ifb t : Bool) (h : s.len < c.verifyMinLen) :
      Raised c s (.verify ifb t) (raise .invalidInput (setV false s))
  | verifyMismatch (ifb : Bool) (h : c.verifyMinLen ≤ s.len)
      (m : verifyMatch s.buf ifb = false) :
      Raised c s (.verify ifb true) (raise .checksumMismatch (setV false s))
  | oppush (sel : OperandSel) (b : Byte) (h : c.opndCap ≤ (getOperand sel s).bytes.length) :
      Raised c s (.oppush sel b) (raise .bufferFull s)
  | build (dp : Bool) (h : encOperand s.opc = none ∨ payloadBytes dp s = none) :
      Raised c s (.build dp) (raise .unsupportedType s)
  | xu8 (off : Nat) (h : s.len < off + 1) : Raised c s (.xu8 off) (raise .windowOutOfRange s)
  | xu16 (off : Nat) (h : s.len < off + 2) : Raised c s (.xu16 off) (raise .windowOutOfRange s)
  | xcenti (off : Nat) (h : s.len < off + 2) :
      Raised c s (.xcenti off) (raise .windowOutOfRange s)
  | xunit (off : Nat) (h : s.len < off + 1) : Raised c s (.xunit off) (raise .windowOutOfRange s)
  | xdp (off : Nat) (h : s.len < off + 1) : Raised c s (.xdp off) (raise .windowOutOfRange s)
  | xds (off : Nat) (h : s.len < off + 1) : Raised c s (.xds off) (raise .windowOutOfRange s)
  | xbit (off k : Nat) (h : s.len < off + 1) :
      Raised c s (.xbit off k) (raise .windowOutOfRange s)

/-- Everything a command can do: it always answers a next state, and by exactly one listed form. -/
theorem execAt_cases (c : Config) (i : Instr) (s : State) :
    ∃ t, execAt c i s = .next t ∧ (Completed c s i t ∨ Raised c s i t) := by
  cases i with
  | nop => exact ⟨_, rfl, .inl .nop⟩
  | rst => exact ⟨_, rfl, .inl .rst⟩
  | bclr => exact ⟨_, rfl, .inl .bclr⟩
  | bpush b =>
    obtain ⟨h, e⟩ | ⟨h, e⟩ := appendByte_cases c b s
    · exact ⟨_, congrArg Host.Outcome.next e, .inl (.bpush b h)⟩
    · exact ⟨_, congrArg Host.Outcome.next e, .inr (.bpush b h)⟩
  | bpushr =>
    obtain ⟨h, e⟩ | ⟨h, e⟩ := appendByte_cases c (BitVec.ofNat 8 s.res.toNat) s
    · exact ⟨_, congrArg Host.Outcome.next e, .inl (.bpushr h)⟩
    · exact ⟨_, congrArg Host.Outcome.next e, .inr (.bpushr h)⟩
  | csum ifb len =>
    obtain ⟨h, e⟩ | ⟨h, e⟩ := execCsum_cases ifb len s
    · exact ⟨_, e, .inl (.csum ifb len h)⟩
    · exact ⟨_, e, .inr (.csum ifb len h)⟩
  | verify ifb t =>
    obtain ⟨h, e⟩ | ⟨h, m, e⟩ | ⟨h, m, rfl, e⟩ | ⟨h, m, rfl, e⟩ := execVerifyAt_cases c ifb t s
    · exact ⟨_, e, .inr (.verifyShort ifb t h)⟩
    · exact ⟨_, e, .inl (.verifyMatch ifb t h m)⟩
    · exact ⟨_, e, .inl (.verifyMismatch ifb h m)⟩
    · exact ⟨_, e, .inr (.verifyMismatch ifb h m)⟩
  | opset sel tag => exact ⟨_, rfl, .inl (.opset sel tag)⟩
  | oppush sel b =>
    obtain ⟨h, e⟩ | ⟨h, e⟩ := execOppushAt_cases c sel b s
    · exact ⟨_, e, .inl (.oppush sel b h)⟩
    · exact ⟨_, e, .inr (.oppush sel b h)⟩
  | build dp =>
    obtain ⟨a, b, k, ha, hb, hk, e⟩ | ⟨h, e⟩ := execBuild_cases dp s
    · exact ⟨_, e, .inl (.build dp a b k ha hb hk)⟩
    · exact ⟨_, e, .inr (.build dp h)⟩
  | xu8 off =>
    obtain ⟨b, h, e⟩ | ⟨h, e⟩ := extractByte_cases off (fun b => b.setWidth 32) s
    · exact ⟨_, congrArg Host.Outcome.next e, .inl (.xu8 off b h)⟩
    · exact ⟨_, congrArg Host.Outcome.next e, .inr (.xu8 off h)⟩
  | xu16 off =>
    obtain ⟨hi, lo, h, h', e⟩ | ⟨h, e⟩ := extractBe16_cases off (fun raw => BitVec.ofNat 32 raw) s
    · exact ⟨_, congrArg Host.Outcome.next e, .inl (.xu16 off hi lo h h')⟩
    · exact ⟨_, congrArg Host.Outcome.next e, .inr (.xu16 off h)⟩
  | xcenti off =>
    obtain ⟨hi, lo, h, h', e⟩ | ⟨h, e⟩ := extractBe16_cases off centiResult s
    · exact ⟨_, congrArg Host.Outcome.next e, .inl (.xcenti off hi lo h h')⟩
    · exact ⟨_, congrArg Host.Outcome.next e, .inr (.xcenti off h)⟩
  | xunit off =>
    obtain ⟨b, h, e⟩ | ⟨h, e⟩ := execXunit_cases off s
    · exact ⟨_, e, .inl (.xunit off b h)⟩
    · exact ⟨_, e, .inr (.xunit off h)⟩
  | xdp off =>
    obtain ⟨b, h, e⟩ | ⟨h, e⟩ :=
      extractByte_cases off (fun b => BitVec.ofNat 32 (decimalPlaces c.nibbleMap b)) s
    · exact ⟨_, congrArg Host.Outcome.next e, .inl (.xdp off b h)⟩
    · exact ⟨_, congrArg Host.Outcome.next e, .inr (.xdp off h)⟩
  | xds off =>
    obtain ⟨b, h, e⟩ | ⟨h, e⟩ :=
      extractByte_cases off (fun b => BitVec.ofNat 32 (dataSign c.nibbleMap b)) s
    · exact ⟨_, congrArg Host.Outcome.next e, .inl (.xds off b h)⟩
    · exact ⟨_, congrArg Host.Outcome.next e, .inr (.xds off h)⟩
  | xbit off k =>
    obtain ⟨b, h, e⟩ | ⟨h, e⟩ := extractByte_cases off (fun b => BitVec.ofNat 32 (bitOf b k)) s
    · exact ⟨_, congrArg Host.Outcome.next e, .inl (.xbit off k b h)⟩
    · exact ⟨_, congrArg Host.Outcome.next e, .inr (.xbit off k h)⟩

/-- The inversion of `execAt`: from its answer, which form it took. -/
theorem execAt_next {c : Config} {i : Instr} {s t : State} (h : execAt c i s = .next t) :
    Completed c s i t ∨ Raised c s i t := by
  obtain ⟨u, e, hu⟩ := execAt_cases c i s
  rw [h] at e
  cases e
  exact hu

/-- The inversion of `exec`. -/
theorem exec_next {i : Instr} {s t : State} (h : exec i s = .next t) :
    Completed Config.hardware s i t ∨ Raised Config.hardware s i t :=
  execAt_next (exec_eq_execAt i s ▸ h)

/-- The listed forms of completion are what `execAt` answers. -/
theorem Completed.execAt_eq {c : Config} {i : Instr} {s t : State} (h : Completed c s i t) :
    execAt c i s = .next t := by
  cases h with
  | nop => rfl
  | rst => rfl
  | bclr => rfl
  | bpush b h => exact congrArg Host.Outcome.next (appendByte_of_lt b h)
  | bpushr h => exact congrArg Host.Outcome.next (appendByte_of_lt _ h)
  | csum ifb len h =>
    obtain ⟨_, e⟩ | ⟨h', _⟩ := execCsum_cases ifb len s
    · exact e
    · omega
  | verifyMatch ifb t h m =>
    obtain ⟨h', _⟩ | ⟨_, _, e⟩ | ⟨_, m', _⟩ | ⟨_, m', _⟩ := execVerifyAt_cases c ifb t s
    · omega
    · exact e
    · rw [m] at m'; cases m'
    · rw [m] at m'; cases m'
  | verifyMismatch ifb h m =>
    obtain ⟨h', _⟩ | ⟨_, m', _⟩ | ⟨_, _, _, e⟩ | ⟨_, _, ht, _⟩ := execVerifyAt_cases c ifb false s
    · omega
    · rw [m] at m'; cases m'
    · exact e
    · cases ht
  | opset sel tag => rfl
  | oppush sel b h => exact if_pos h
  | build dp a b k ha hb hk =>
    show execBuild dp s = _
    simp only [execBuild, ha, hb, cks_frameBody, hk]
  | xu8 off b h => exact congrArg Host.Outcome.next (extractByte_some _ h)
  | xu16 off hi lo h h' => exact congrArg Host.Outcome.next (extractBe16_some _ h h')
  | xcenti off hi lo h h' => exact congrArg Host.Outcome.next (extractBe16_some _ h h')
  | xunit off b h =>
    show execXunit off s = _
    simp only [execXunit, window1_eq, h]
  | xdp off b h => exact congrArg Host.Outcome.next (extractByte_some _ h)
  | xds off b h => exact congrArg Host.Outcome.next (extractByte_some _ h)
  | xbit off k b h => exact congrArg Host.Outcome.next (extractByte_some _ h)

/-- The listed forms of raising are what `execAt` answers. -/
theorem Raised.execAt_eq {c : Config} {i : Instr} {s t : State} (h : Raised c s i t) :
    execAt c i s = .next t := by
  cases h with
  | bpush b h => exact congrArg Host.Outcome.next (appendByte_of_ge b h)
  | bpushr h => exact congrArg Host.Outcome.next (appendByte_of_ge _ h)
  | csum ifb len h =>
    obtain ⟨h', _⟩ | ⟨_, e⟩ := execCsum_cases ifb len s
    · omega
    · exact e
  | verifyShort ifb t h => exact if_pos h
  | verifyMismatch ifb h m =>
    obtain ⟨h', _⟩ | ⟨_, m', _⟩ | ⟨_, _, ht, _⟩ | ⟨_, _, _, e⟩ := execVerifyAt_cases c ifb true s
    · omega
    · rw [m] at m'; cases m'
    · cases ht
    · exact e
  | oppush sel b h => exact if_neg (by omega)
  | build dp h =>
    obtain ⟨a, b, k, ha, hb, _⟩ | ⟨_, e⟩ := execBuild_cases dp s
    · simp [ha, hb] at h
    · exact e
  | xu8 off h => exact congrArg Host.Outcome.next (extractByte_none _ h)
  | xu16 off h => exact congrArg Host.Outcome.next (extractBe16_none _ h)
  | xcenti off h => exact congrArg Host.Outcome.next (extractBe16_none _ h)
  | xunit off h =>
    show execXunit off s = _
    simp only [execXunit, window1_none_iff.mpr h]
  | xdp off h => exact congrArg Host.Outcome.next (extractByte_none _ h)
  | xds off h => exact congrArg Host.Outcome.next (extractByte_none _ h)
  | xbit off k h => exact congrArg Host.Outcome.next (extractByte_none _ h)

/-- A completion does not depend on the host's queue, and keeps it. -/
theorem Completed.withPending {c : Config} {i : Instr} {s t : State} (p : List HostAction)
    (h : Completed c s i t) :
    Completed c { s with pending := p } i { t with pending := p } := by
  cases h with
  | nop => exact .nop
  | rst => exact .rst
  | bclr => exact .bclr
  | bpush b h => exact .bpush b h
  | bpushr h => exact .bpushr h
  | csum ifb len h => exact .csum ifb len h
  | verifyMatch ifb t h m => exact .verifyMatch ifb t h m
  | verifyMismatch ifb h m => exact .verifyMismatch ifb h m
  | opset sel tag => cases sel <;> exact .opset _ tag
  | oppush sel b h => cases sel <;> exact .oppush _ b h
  | build dp a b k ha hb hk => exact .build dp a b k ha hb hk
  | xu8 off b h => exact .xu8 off b h
  | xu16 off hi lo h h' => exact .xu16 off hi lo h h'
  | xcenti off hi lo h h' => exact .xcenti off hi lo h h'
  | xunit off b h => exact .xunit off b h
  | xdp off b h => exact .xdp off b h
  | xds off b h => exact .xds off b h
  | xbit off k b h => exact .xbit off k b h

/-- An error entry does not depend on the host's queue, and keeps it. -/
theorem Raised.withPending {c : Config} {i : Instr} {s t : State} (p : List HostAction)
    (h : Raised c s i t) : Raised c { s with pending := p } i { t with pending := p } := by
  cases h with
  | bpush b h => exact .bpush b h
  | bpushr h => exact .bpushr h
  | csum ifb len h => exact .csum ifb len h
  | verifyShort ifb t h => exact .verifyShort ifb t h
  | verifyMismatch ifb h m => exact .verifyMismatch ifb h m
  | oppush sel b h => cases sel <;> exact .oppush _ b h
  | build dp h => exact .build dp h
  | xu8 off h => exact .xu8 off h
  | xu16 off h => exact .xu16 off h
  | xcenti off h => exact .xcenti off h
  | xunit off h => exact .xunit off h
  | xdp off h => exact .xdp off h
  | xds off h => exact .xds off h
  | xbit off k h => exact .xbit off k h

/-- No command reads the host's queue: with another queue it does the same and keeps that queue. -/
theorem execAt_withPending {c : Config} {i : Instr} {s t : State} (p : List HostAction)
    (h : execAt c i s = .next t) :
    execAt c i { s with pending := p } = .next { t with pending := p } := by
  obtain h | h := execAt_next h
  · exact (h.withPending p).execAt_eq
  · exact (h.withPending p).execAt_eq

/-- A completed command leaves 0 in ERR (R123). -/
theorem Completed.err_eq {c : Config} {i : Instr} {s t : State} (h : Completed c s i t) :
    t.err = 0 := by
  cases h <;> rfl

/-- A command that raised took the one error entry of R124. -/
theorem Raised.entry {c : Config} {i : Instr} {s t : State} (h : Raised c s i t) :
    ∃ k ∈ possibleErrors i,
      t = raise k (if i.mnemonic = .VERIFY then setV false s else s) := by
  cases h <;> exact ⟨_, by simp [possibleErrors]; try (split <;> simp), rfl⟩

theorem ErrorKind.code_pos (k : ErrorKind) : 1 ≤ k.code ∧ k.code ≤ 6 := by cases k <;> decide

/-- The code in ERR after an error entry. -/
theorem raise_err_toNat (k : ErrorKind) (s : State) : (raise k s).err.toNat = k.code := by
  cases k <;> rfl

theorem raise_err_ne_zero (k : ErrorKind) (s : State) : (raise k s).err ≠ 0 := by
  cases k <;> simp [ErrorKind.code]

theorem Raised.err_ne_zero {c : Config} {i : Instr} {s t : State} (h : Raised c s i t) :
    t.err ≠ 0 := by
  obtain ⟨k, _, rfl⟩ := h.entry
  exact raise_err_ne_zero k _

/-- The bits of FAULTS after an error entry. -/
theorem raise_faults_bit (k : ErrorKind) (s : State) (n : Nat) :
    (raise k s).faults.getLsbD n = true ↔ s.faults.getLsbD n = true ∨ k.code = n := by
  have hb : k.faultBit.getLsbD n = true ↔ k.code = n := by
    have hk := k.code_pos
    have h1 : (1 : Word) = BitVec.ofNat 32 1 := rfl
    simp only [ErrorKind.faultBit, h1, BitVec.getLsbD_shiftLeft, BitVec.getLsbD_one, Bool.and_eq_true,
      Bool.not_eq_true', decide_eq_true_eq, decide_eq_false_iff_not]
    omega
  rw [raise_faults, BitVec.getLsbD_or, Bool.or_eq_true, hb]

end Sys2Proof.Machine
end

