-- ==== Sys2Proof/Laws/PerInstr.lean ====
section
/-! SUPPORT. Lemmas made per command (LAWS.json): the word of a well-formed command carries the
opcode of the command's row of spec/30_encoding.md R52. -/

namespace Sys2Proof.Laws.OpcodeOfWord

/-- The opcode field of a command's word is that of its row. -/
def Statement (i : Instr) : Prop :=
  i.wf = true → bits (encode i) 31 24 = bits i.mnemonic.pattern 31 24

theorem nop : Statement .nop := fun _ =>
  opcode_of_word .NOP rfl (by decide) (by decide) (by decide)
theorem rst : Statement .rst := fun _ =>
  opcode_of_word .RST rfl (by decide) (by decide) (by decide)
theorem bclr : Statement .bclr := fun _ =>
  opcode_of_word .BCLR rfl (by decide) (by decide) (by decide)
theorem bpush (imm8 : Byte) : Statement (.bpush imm8) := fun _ =>
  opcode_of_word .BPUSH rfl (by decide) (by decide) (by have := imm8.isLt; omega)
theorem bpushr : Statement .bpushr := fun _ =>
  opcode_of_word .BPUSHR rfl (by decide) (by decide) (by decide)
theorem csum (ifb : Bool) (len : Int) : Statement (.csum ifb len) := fun _ =>
  opcode_of_word .CSUM rfl (by decide) (by decide) (by have := ifb.toNat_le; omega)
theorem verify (ifb : Bool) (t : Bool) : Statement (.verify ifb t) := fun _ =>
  opcode_of_word .VERIFY rfl (by decide) (by decide) (by have := ifb.toNat_le; have := t.toNat_le; omega)
theorem opset (sel : OperandSel) (tag : Tag) : Statement (.opset sel tag) := fun _ =>
  opcode_of_word .OPSET rfl (by decide) (by decide) (by have := sel.code_lt; have := tag.code_lt; omega)
theorem oppush (sel : OperandSel) (imm8 : Byte) : Statement (.oppush sel imm8) := fun _ =>
  opcode_of_word .OPPUSH rfl (by decide) (by decide) (by have := sel.code_lt; have := imm8.isLt; omega)
theorem build (dp : Bool) : Statement (.build dp) := fun _ =>
  opcode_of_word .BUILD rfl (by decide) (by decide) (by have := dp.toNat_le; omega)
theorem xu8 (off : Nat) : Statement (.xu8 off) := fun h =>
  opcode_of_word .XU8 rfl (by decide) (by decide)
    (by simp only [Instr.wf, offsetOk, decide_eq_true_eq] at h; omega)
theorem xu16 (off : Nat) : Statement (.xu16 off) := fun h =>
  opcode_of_word .XU16 rfl (by decide) (by decide)
    (by simp only [Instr.wf, offsetOk, decide_eq_true_eq] at h; omega)
theorem xcenti (off : Nat) : Statement (.xcenti off) := fun h =>
  opcode_of_word .XCENTI rfl (by decide) (by decide)
    (by simp only [Instr.wf, offsetOk, decide_eq_true_eq] at h; omega)
theorem xunit (off : Nat) : Statement (.xunit off) := fun h =>
  opcode_of_word .XUNIT rfl (by decide) (by decide)
    (by simp only [Instr.wf, offsetOk, decide_eq_true_eq] at h; omega)
theorem xdp (off : Nat) : Statement (.xdp off) := fun h =>
  opcode_of_word .XDP rfl (by decide) (by decide)
    (by simp only [Instr.wf, offsetOk, decide_eq_true_eq] at h; omega)
theorem xds (off : Nat) : Statement (.xds off) := fun h =>
  opcode_of_word .XDS rfl (by decide) (by decide)
    (by simp only [Instr.wf, offsetOk, decide_eq_true_eq] at h; omega)
theorem xbit (off : Nat) (k : Nat) : Statement (.xbit off k) := fun h =>
  opcode_of_word .XBIT rfl (by decide) (by decide) (by
    simp only [Instr.wf, offsetOk, bitNumberOk, Bool.and_eq_true, decide_eq_true_eq] at h
    omega)

end Sys2Proof.Laws.OpcodeOfWord
end

