-- ==== Sys2Proof/Tests/Slice0.lean ====
section
/-! SUPPORT. Small tests: the well-formedness checks, every command's word written bit by bit from
the formats of spec/30_encoding.md R51 and R52, one step per test with the expected values of
spec/95_test_vectors.md (its vector named in each docstring), and for each statement with hypotheses
a theorem that shows states and operands meeting them. -/

namespace Sys2Proof.Tests

open Sys2Proof.Machine

/-- The next state of an answer. -/
def nextOf : Result → Option State
  | .next t => some t
  | .fault _ => none
  | .refused _ => none

/-- The reset state with the given bytes in BUF. -/
def withBuf (b : List Byte) : State := { State.reset with buf := b }

/-- The start of spec/95 section 2.3: bytes in BUF and `RES = 0xAAAA`. -/
def marked (b : List Byte) : State := { withBuf b with res := 0xAAAA }

/-- A buffer of `n` zero bytes. -/
def filled (n : Nat) : State := withBuf (List.replicate n 0)

/-- The reset state with both operands staged. -/
def staged (c p : Operand) : State := { State.reset with opc := c, opp := p }

/-- An operand. -/
def op (tag : Tag) (b : List Byte) : Operand := { tag := tag, bytes := b }

/-- The element `f` of the next state of one command. -/
def outcome {α : Type} (i : Instr) (s : State) (f : State → α) : Option α := (nextOf (exec i s)).map f

/-- The element `f` of the next state of one command under other parameters. -/
def outcomeAt {α : Type} (c : Config) (i : Instr) (s : State) (f : State → α) : Option α :=
  (nextOf (execAt c i s)).map f

/-! ### Well-formedness: each check refuses an ill-formed term -/

theorem test_wf_offset_refused :
    (Instr.xu8 256).wf = false ∧ (Instr.xu16 256).wf = false ∧ (Instr.xcenti 256).wf = false ∧
      (Instr.xunit 256).wf = false ∧ (Instr.xdp 256).wf = false ∧ (Instr.xds 256).wf = false ∧
      (Instr.xbit 256 0).wf = false := by decide

theorem test_wf_bit_number_refused : (Instr.xbit 0 8).wf = false := by decide

theorem test_wf_length_refused :
    (Instr.csum false 32768).wf = false ∧ (Instr.csum true (-32769)).wf = false := by decide

theorem test_wf_bounds_accepted :
    (Instr.xbit 255 7).wf = true ∧ (Instr.csum false 32767).wf = true ∧
      (Instr.csum true (-32768)).wf = true := by decide

/-! ### Decoding: a word of every command, bit by bit from R51's formats -/

theorem test_decode_nop : decode 0b00000000_000000000000000000000000#32 = .ok .nop := by decide
theorem test_decode_rst : decode 0b00000001_000000000000000000000000#32 = .ok .rst := by decide
theorem test_decode_bclr : decode 0b00010000_000000000000000000000000#32 = .ok .bclr := by decide
theorem test_decode_bpush :
    decode 0b00010001_0000000000000000_10000110#32 = .ok (.bpush 0x86) := by decide
theorem test_decode_bpushr : decode 0b00010010_000000000000000000000000#32 = .ok .bpushr := by decide
theorem test_decode_csum :
    decode 0b00100000_0000000_1_1111111111111011#32 = .ok (.csum true (-5)) ∧
      decode 0b00100000_0000000_0_0111111111111111#32 = .ok (.csum false 32767) := by decide
theorem test_decode_verify :
    decode 0b00100001_000000_1_0_0000000000000000#32 = .ok (.verify false true) ∧
      decode 0b00100001_000000_0_1_0000000000000000#32 = .ok (.verify true false) := by decide
theorem test_decode_opset :
    decode 0b00110000_000000000000000_1_000000_10#32 = .ok (.opset .opp .text) ∧
      decode 0b00110000_000000000000000_0_000000_01#32 = .ok (.opset .opc .bytes) := by decide
theorem test_decode_oppush :
    decode 0b00110001_000000000000000_1_01000001#32 = .ok (.oppush .opp 0x41) := by decide
theorem test_decode_build :
    decode 0b00110010_00000000000000000000000_1#32 = .ok (.build true) := by decide
theorem test_decode_xu8 :
    decode 0b01000000_0000000000000000_11111111#32 = .ok (.xu8 255) := by decide
theorem test_decode_xu16 :
    decode 0b01000001_0000000000000000_00001011#32 = .ok (.xu16 11) := by decide
theorem test_decode_xcenti :
    decode 0b01000010_0000000000000000_00001010#32 = .ok (.xcenti 10) := by decide
theorem test_decode_xunit :
    decode 0b01000011_0000000000000000_00000101#32 = .ok (.xunit 5) := by decide
theorem test_decode_xdp :
    decode 0b01000100_0000000000000000_00000110#32 = .ok (.xdp 6) := by decide
theorem test_decode_xds :
    decode 0b01000101_0000000000000000_00000110#32 = .ok (.xds 6) := by decide
theorem test_decode_xbit :
    decode 0b01000110_0000000000000_111_00000110#32 = .ok (.xbit 6 7) := by decide

/-- T-IL-1 to T-IL-12 of spec/95 section 2.6. -/
theorem test_decode_illegal :
    decodeTableWord 32 0x00000001 = none ∧ decodeTableWord 32 0x02000000 = none ∧
      decodeTableWord 32 0x21000001 = none ∧ decodeTableWord 32 0x20020000 = none ∧
      decodeTableWord 32 0x11000100 = none ∧ decodeTableWord 32 0x30000004 = none ∧
      decodeTableWord 32 0x30000200 = none ∧ decodeTableWord 32 0x32000002 = none ∧
      decodeTableWord 32 0x40000100 = none ∧ decodeTableWord 32 0x46000800 = none ∧
      decodeTableWord 32 0x47000000 = none ∧ decodeTableWord 32 0xFFFFFFFF = none := by decide

/-- "Legal words that look unusual", spec/95 section 2.6. -/
theorem test_decode_unusual :
    decodeTableWord 32 0x30000003 = some (.opset .opc .none) ∧
      decodeTableWord 32 0x2001FFFF = some (.csum true (-1)) ∧
      decodeTableWord 32 0x21030000 = some (.verify true true) := by decide

/-- The words of the programs P1 and P6, spec/95. -/
theorem test_encode_words :
    encode (.opset .opc .int) = 0x30000000 ∧ encode (.oppush .opc 0x86) = 0x31000086 ∧
      encode (.build true) = 0x32000001 ∧ encode (.csum false (-7)) = 0x2000FFF9 ∧
      encode (.verify false true) = 0x21020000 ∧ encode (.xbit 6 7) = 0x46000706 := by decide

/-! ### One step of each command -/

/-- T-CB-1. -/
theorem test_nop :
    outcome .nop { State.reset with err := 3, faults := 0x08, res := 7 }
      (fun t => (t.err, t.faults, t.res)) = some (0, 0x08, 7) := by decide

/-- T-CB-2. -/
theorem test_rst :
    nextOf (exec .rst
      { buf := [0x02, 0x00, 0x03], res := 0x320, err := 4, faults := 0x1A, v := true, u := true
        opc := op .int [0x86], opp := op .none [], pending := [] }) = some State.reset := by decide

/-- T-CB-3. -/
theorem test_bclr :
    outcome .bclr { withBuf [0x02, 0x00, 0x03] with v := true, faults := 0x08 }
      (fun t => (t.buf, t.v, t.faults)) = some ([], false, 0x08) := by decide

/-- T-CB-5. -/
theorem test_bpush :
    outcome (.bpush 0x86) (withBuf [0xFF, 0x01]) State.buf = some [0xFF, 0x01, 0x86] := by decide

/-- T-CB-8, T-CB-10. -/
theorem test_bpush_at_capacity :
    outcome (.bpush 0xAA) (filled 64) (fun t => (t.len, t.err, t.faults)) = some (64, 5, 0x20) ∧
      outcome (.bpush 0x00) { filled 63 with v := true } (fun t => (t.len, t.err, t.v)) =
        some (64, 0, false) := by decide

/-- T-CB-7. -/
theorem test_bpushr :
    outcome .bpushr { withBuf [0x12, 0x34, 0x56, 0x78] with res := 0x00190001 } State.buf =
      some [0x12, 0x34, 0x56, 0x78, 0x01] := by decide

/-- T-CB-9. -/
theorem test_bpushr_at_capacity :
    outcome .bpushr (filled 64) (fun t => (t.len, t.err, t.faults)) = some (64, 5, 0x20) := by decide

/-- `D8` of spec/95 section 2.2. -/
def d8 : State := withBuf [0xFF, 0x01, 0x86, 0x00, 0x00, 0x00, 0x00, 0x00]

/-- T-CS-1, 2, 6, 9, 10, 12, 14, 15, 17, 19. -/
theorem test_csum_ranges :
    [(false, 0), (false, 1), (false, 32767), (false, -6), (false, -7), (false, -32768),
      (true, 1), (true, 2), (true, -6), (true, -8)].map
        (fun p : Bool × Int => outcome (.csum p.1 p.2) d8 State.res) =
      [some 0x79, some 0xFF, some 0x79, some 0xFF, some 0x00, some 0x00,
        some 0x01, some 0x00, some 0x00, some 0x00] := by decide

/-- T-CS-30, T-CS-36, T-CS-37. -/
theorem test_csum_guard :
    outcome (.csum false 0) (withBuf [0, 0, 0, 0]) State.res = some 0 ∧
      outcome (.csum true 0) (withBuf [0xFF, 0xFF, 0xFF, 0xFF]) State.res = some 0x04 ∧
      outcome (.csum false 0) (marked [1, 2, 3]) (fun t => (t.res, t.err, t.faults)) =
        some (0xAAAA, 1, 0x02) := by decide

/-- T-VF-3, T-VF-6, T-VF-8, T-VF-9, T-VF-16. -/
theorem test_verify :
    outcome (.verify false false) (marked [0, 0, 0, 0]) (fun t => (t.res, t.v, t.err, t.faults)) =
        some (0xAAAA, false, 1, 0x02) ∧
      outcome (.verify false false) (marked [0x12, 0x34, 0x56, 0x78, 0xFE])
        (fun t => (t.res, t.v, t.err, t.faults)) = some (1, true, 0, 0) ∧
      outcome (.verify true false) (marked [0x12, 0x34, 0x56, 0x78, 0xFE])
        (fun t => (t.res, t.v, t.err, t.faults)) = some (0, false, 0, 0) ∧
      outcome (.verify true true) (marked [0x12, 0x34, 0x56, 0x78, 0xFE])
        (fun t => (t.res, t.v, t.err, t.faults)) = some (0xAAAA, false, 3, 0x08) ∧
      outcome (.verify false false) { marked [1] with v := true } (fun t => (t.v, t.err)) =
        some (false, 1) := by decide

/-- T-VF-4: `VERIFY_MIN_LEN = 4`. -/
theorem test_verify_min_len_4 :
    outcomeAt { Config.hardware with verifyMinLen := 4 } (.verify false false) (marked [0, 0, 0, 0])
      (fun t => (t.res, t.v, t.err)) = some (1, true, 0) := by decide

/-- T-FB-20, T-FB-21. -/
theorem test_opset :
    outcome (.opset .opc .int) (staged (op .bytes [1, 2]) (op .none [])) State.opc =
        some (op .int []) ∧
      outcome (.opset .opp .text) State.reset (fun t => (t.opp, t.opc)) =
        some (op .text [], op .none []) := by decide

/-- T-FB-23, T-FB-24, T-FB-25. -/
theorem test_oppush :
    outcome (.oppush .opp 0xCD) (staged (op .none []) (op .bytes [0xAB])) State.opp =
        some (op .bytes [0xAB, 0xCD]) ∧
      outcome (.oppush .opc 0x99) (staged (op .bytes [0, 1, 2, 3, 4, 5, 6, 7]) (op .none []))
        (fun t => (t.opc.bytes.length, t.err, t.faults)) = some (8, 5, 0x20) ∧
      outcome (.oppush .opc 0x12) State.reset (fun t => (t.opc, t.err)) =
        some (op .none [0x12], 0) := by decide

/-- T-FB-1, T-FB-3, T-FB-4, T-FB-7. -/
theorem test_build :
    outcome (.build true) (staged (op .int [0, 0, 0x86]) (op .none [])) State.buf =
        some [0xFF, 0x01, 0x86, 0, 0, 0, 0, 0, 0x79] ∧
      outcome (.build true) (staged (op .bytes [0, 0x86]) (op .text [])) State.buf =
        some [0xFF, 0x01, 0, 0x86, 0, 0, 0, 0, 0, 0x79] ∧
      outcome (.build true) (staged (op .int []) (op .none [])) State.buf =
        some [0xFF, 0x01, 0, 0, 0, 0, 0, 0, 0xFF] ∧
      outcome (.build false) (staged (op .int [1, 0]) (op .bytes [0xAB, 0xCD]))
        (fun t => (t.buf, t.res)) =
        some ([0xFF, 0x01, 1, 0, 0xAB, 0xCD, 0, 0, 0, 0, 0x86], 0x86) := by decide

/-- T-FB-8, T-FB-10, T-FB-13. -/
theorem test_build_refusals_and_longest :
    outcome (.build true) (staged (op .text [0x41]) (op .none []))
        (fun t => (t.buf, t.err, t.faults)) = some ([], 2, 0x04) ∧
      outcome (.build false) (staged (op .int [0x86]) (op .none [])) (fun t => (t.buf, t.err)) =
        some ([], 2) ∧
      outcome (.build false)
        (staged (op .int (List.replicate 8 0xFF)) (op .bytes (List.replicate 8 0xFF)))
        (fun t => (t.len, t.res)) = some (23, 0x0F) := by decide

/-- The 13-byte buffer of spec/95 section 2.5. -/
def reply13 : State :=
  marked [0xAA, 0x55, 0x00, 0x19, 0x03, 0xE8, 0x00, 0x0D, 0x09, 0xC5, 0x13, 0x88, 0x31]

/-- T-FX-7, T-FX-8. -/
theorem test_xu8 :
    outcome (.xu8 12) reply13 (fun t => (t.res, t.err)) = some (0x31, 0) ∧
      outcome (.xu8 13) reply13 (fun t => (t.res, t.err, t.faults)) = some (0xAAAA, 4, 0x10) := by
  decide

/-- T-FX-3, T-FX-4, T-FX-5, T-FX-6. -/
theorem test_xu16 :
    outcome (.xu16 3) reply13 State.res = some 0x1903 ∧
      outcome (.xu16 11) reply13 State.res = some 0x8831 ∧
      outcome (.xu16 12) reply13 (fun t => (t.res, t.err, t.faults)) = some (0xAAAA, 4, 0x10) ∧
      outcome (.xu16 255) reply13 State.err = some 4 := by decide

/-- T-FX-9, T-FX-11, T-FX-18. -/
theorem test_xcenti :
    outcome (.xcenti 8) reply13 State.res = some 0x00190001 ∧
      outcome (.xcenti 12) reply13 (fun t => (t.res, t.err)) = some (0xAAAA, 4) ∧
      outcome (.xcenti 0) (withBuf [0xFF, 0xFF]) State.res = some 0x028F0023 := by decide

/-- T-FX-19, T-FX-20, T-FX-21, T-FX-24, T-FX-25. -/
theorem test_xunit :
    [0x02, 0x04, 0x08, 0xFF, 0x06].map
        (fun b : Byte => outcome (.xunit 0) { withBuf [b] with u := true }
          (fun t => (t.res, t.u, t.err))) =
      [some (1, true, 0), some (2, true, 0), some (3, true, 0), some (0, false, 0),
        some (0, false, 0)] := by decide

/-- XUNIT past the end leaves U (spec/43 R106: the bound check comes first). -/
theorem test_xunit_window :
    outcome (.xunit 1) { marked [0x02] with u := true } (fun t => (t.res, t.u, t.err)) =
      some (0xAAAA, true, 4) := by decide

/-- T-FX-30, XDP, the default map and the other three. -/
theorem test_xdp :
    outcome (.xdp 0) (withBuf [0xB5]) State.res = some 11 ∧
      [NibbleMap.hiLoPlain, .loHiPlain, .hiPlainLoRev, .loPlainHiRev].map
        (fun m => outcomeAt { Config.hardware with nibbleMap := m } (.xdp 0) (withBuf [0xB5])
          State.res) = [some 11, some 5, some 11, some 5] := by decide

/-- T-FX-30, XDS, the default map and the other three. -/
theorem test_xds :
    outcome (.xds 0) (withBuf [0xB5]) State.res = some 5 ∧
      [NibbleMap.hiLoPlain, .loHiPlain, .hiPlainLoRev, .loPlainHiRev].map
        (fun m => outcomeAt { Config.hardware with nibbleMap := m } (.xds 0) (withBuf [0xB5])
          State.res) = [some 5, some 11, some 10, some 13] := by decide

/-- T-FX-36 under the two bit-reversing maps. -/
theorem test_xds_reversed :
    [NibbleMap.hiPlainLoRev, .loPlainHiRev].map
        (fun m => outcomeAt { Config.hardware with nibbleMap := m } (.xds 0) (withBuf [0x1F])
          State.res) = [some 15, some 8] := by decide

/-- T-FX-40 to T-FX-47. -/
theorem test_xbit :
    [0, 1, 2, 3, 4, 5, 6, 7].map
        (fun k => outcome (.xbit 6 k) (withBuf [0, 0, 0, 0, 0, 0, 0xB5]) State.res) =
      [some 1, some 0, some 1, some 0, some 1, some 1, some 0, some 1] := by decide

/-- T-IL-2 from a state that has something to lose. -/
theorem test_illegal_word :
    nextOf (presentWord 0x02000000 { marked [1, 2] with v := true, faults := 0x02 }) =
      some { marked [1, 2] with v := true, err := 6, faults := 0x42 } := by decide

/-! ### Steps, the host, notation -/

/-- A word placed by `withFetchWord` runs in the very next step from reset. -/
theorem test_fetch_word :
    nextOf (step (State.reset.withFetchWord 32 0x11000086)) = some (withBuf [0x86]) := by decide

/-- A bus write of CMD presents its word; the host reads STATUS and BUFWIN (spec/10 R19, R20). -/
theorem test_host_bus :
    nextOf (hostAct (.busWrite 0x000 0x11000086) State.reset) = some (withBuf [0x86]) ∧
      nextOf (hostAct (.busWrite 0x004 0x11000086) State.reset) = some State.reset ∧
      hostRead { withBuf [0x86] with err := 3, u := true } 0x004 = 5 ∧
      hostRead (withBuf [0x86]) 0x100 = 0x86 ∧ hostRead (withBuf [0x86]) 0x101 = 0 := by decide

/-- `BUILDC 0x86` of program P1 is its three words. -/
theorem test_pseudo_buildc :
    (Pseudo.expand Config.hardware (.buildc 0x86)).map encode =
      [0x30000000, 0x31000086, 0x32000001] := by decide

/-- Lines of programs P1, P2, P6 with comments and pseudo-instructions. -/
theorem test_assembler_lines :
    (assembleLine Config.hardware ['X', 'G', 'A', 'S', ' ', ' ', '2', ' ', ';', ' ', 'x']).map
        (List.map encode) = some [0x41000002] ∧
      assembleLine Config.hardware [' ', ';', 'N', 'O', 'P'] = some [] ∧
      (assembleLine Config.hardware
        ['X', 'G', 'A', 'S', ' ', '2', ' ', '(', '=', ' ', 'X', 'U', '1', '6', ' ', '2', ')',
          ' ', ';']).map (List.map encode) = some [0x41000002] ∧
      assembleLine Config.hardware ['X', 'B', 'I', 'T', ' ', '6', ',', '8'] = none := by decide

/-- The LOADF line of program P4, in hexadecimal pairs, and the same bytes with R63's commas; a mixed
line is refused. -/
theorem test_assembler_loadf :
    (assembleLine Config.hardware
      ['L', 'O', 'A', 'D', 'F', ' ', ' ', '1', '2', ' ', '3', '4', ' ', '5', '6', ' ', '7', '8', ' ',
        ' ', ';', ' ', '1', '0']).map (List.map encode) =
        some [0x10000000, 0x11000012, 0x11000034, 0x11000056, 0x11000078] ∧
      (assembleLine Config.hardware
        ['L', 'O', 'A', 'D', 'F', ' ', '0', 'x', '1', '2', ',', ' ', '5', '2']).map
        (List.map encode) = some [0x10000000, 0x11000012, 0x11000034] ∧
      assembleLine Config.hardware
        ['L', 'O', 'A', 'D', 'F', ' ', '1', '2', ' ', '3', '4', ',', '5'] = none := by decide

/-! ### Witnesses: states and operands that meet the hypotheses of each statement that has some, one
for each clause, at the ends of its range -/

theorem witness_DecodeOfEncodeIsTheCommand :
    (Instr.xbit 0 0).wf = true ∧ (Instr.xbit 255 7).wf = true ∧
      (Instr.csum true (-32768)).wf = true ∧ (Instr.csum false 32767).wf = true ∧
      (Instr.bpush 0xFF).wf = true := by decide

theorem witness_EncodeOfDecodeIsTheWord :
    decode 0x21030000 = .ok (.verify true true) ∧ decode 0x200180FF = .ok (.csum true (-32513)) := by
  decide

theorem witness_IllegalWordRaisesIllegalCommand :
    (∀ m, ¬ Mnemonic.Matches m 0x00000001) ∧ ∀ m, ¬ Mnemonic.Matches m 0xFFFFFFFF := by
  constructor <;> intro m <;> cases m <;> decide

theorem witness_ReservedBitsAreChecked :
    bits 0x46000800 31 24 = bits Mnemonic.XBIT.pattern 31 24 ∧
      ¬ Mnemonic.XBIT.Matches 0x46000800 := by decide

theorem witness_StepRunsTheDecodedCommand :
    decode 0x10000000 = .ok .bclr ∧
      { filled 2 with pending := [.command 0x10000000, .resetPulse] }.pending =
        .command 0x10000000 :: [.resetPulse] ∧
      { filled 2 with pending := [.busWrite 0x000 0x10000000] }.pending =
        .busWrite 0x000 0x10000000 :: [] := by decide

theorem witness_EveryStepAnswersAndTakesOneAction : (filled 3).pending = [] := by decide

theorem witness_HostReadHasNoSideEffect :
    { filled 2 with pending := [.busRead 0x010] }.pending = .busRead 0x010 :: [] := by decide

/-- A buffer of the largest legal capacity reaches every index of BUFWIN. -/
theorem witness_HostAddressMap :
    (filled 255).readByte 254 = some 0 ∧ (filled 1).readByte 0 = some 0 ∧
      (filled 0).len ≤ 0 ∧ (filled 64).len ≤ 64 ∧ (filled 64).len ≤ 254 ∧
      (0x000 : Nat) ∉ [0x004, 0x008, 0x00C, 0x010, 0x014, 0x018, 0x01C] ∧
      (0x0FF : Nat) ∉ [0x004, 0x008, 0x00C, 0x010, 0x014, 0x018, 0x01C] ∧
      (0x1FF : Nat) ∉ [0x004, 0x008, 0x00C, 0x010, 0x014, 0x018, 0x01C] ∧
      0x100 + 255 ≤ 0x1FF := by decide

/-- A state that meets the invariant with every flag set, both operands staged and a verified
frame. -/
def busy : State :=
  { buf := [0x12, 0x34, 0x56, 0x78, 0xFE], res := 1, err := 6, faults := 0x7E, v := true, u := true
    opc := op .bytes [0, 1, 2, 3, 4, 5, 6, 7], opp := op .text [], pending := [.command 0x02000000] }

theorem witness_RegisterViewFields : busy.Inv Config.hardware := by decide

theorem witness_BpushAppendsItsByte :
    (filled 0).len < 64 ∧ (filled 63).len < 64 ∧ (filled 64).len = 64 := by decide

theorem witness_BpushrAppendsTheLowByteOfRes :
    (filled 0).len < 64 ∧ (filled 63).len < 64 ∧ (filled 64).len = 64 := by decide

theorem witness_CsumComputesTheChecksumOfTheRange :
    (-32768 : Int) ≤ -32768 ∧ (32767 : Int) ≤ 32767 ∧ (filled 3).len < 4 ∧ 4 ≤ (filled 4).len := by
  decide

theorem witness_CsumRangeCorners :
    4 ≤ d8.len ∧ (-7 : Int) < 0 ∧ (d8.len : Int) - (if false = true then 0 else 1) ≤ -(-7) ∧
      (d8.len : Int) - (if true = true then 0 else 1) ≤ -(-8) ∧ (d8.len : Int) ≤ 8 := by decide

/-- Below the guard, and at it the three clauses: a match, a mismatch with `t = 0` and with
`t = 1`. -/
theorem witness_VerifyComparesTheLastByte :
    (filled 4).len < 5 ∧ 5 ≤ (filled 5).len ∧
      decide ((255 - (0 + 0 + 0) % 256 + 1) % 256 = ((filled 5).buf.getD 4 0).toNat) = true ∧
      5 ≤ (withBuf [0, 0, 0, 0, 1]).len ∧
      decide ((255 - (0 + 0 + 0) % 256 + 1) % 256 =
        ((withBuf [0, 0, 0, 0, 1]).buf.getD 4 0).toNat) = false := by decide

theorem witness_VerifyLengthGuardOfEveryBlock :
    Config.hardware.Legal ∧ { Config.hardware with verifyMinLen := 4 }.Legal ∧
      execAt { Config.hardware with verifyMinLen := 4 } (.verify false true) (filled 4) =
        .next { filled 4 with res := 1, v := true } ∧
      execAt Config.hardware (.verify false true) (filled 4) =
        .next { filled 4 with err := 1, faults := 2 } ∧
      (filled 3).len ≤ 3 ∧ 5 ≤ (filled 5).len := ⟨by decide, by decide, rfl, rfl, by decide, by decide⟩

theorem witness_VerifyMatchesExactlyWhenTheSumIsZero :
    5 ≤ (filled 5).len ∧
      exec (.verify true false) (filled 5) = .next { filled 5 with res := 1, v := true } :=
  ⟨by decide, rfl⟩

theorem witness_ChecksumCompletesTheSum : List.Perm ([1, 2] : List Byte) [2, 1] := by decide

theorem witness_ChecksumRoundTrip :
    4 ≤ (filled 4).len ∧ (filled 4).len < 64 ∧ 4 ≤ (filled 63).len ∧ (filled 63).len < 64 := by
  decide

theorem witness_ChecksumCommandsDependOnTheBufferOnly :
    (filled 5).buf = (marked [0, 0, 0, 0, 0]).buf ∧
      execAt Config.hardware (.csum false 0) (filled 5) = .next (filled 5) ∧
      execAt Config.hardware (.csum false 0) (marked [0, 0, 0, 0, 0]) = .next (filled 5) ∧
      execAt Config.hardware (.verify false true) (filled 5) =
        .next { filled 5 with res := 1, v := true } ∧
      execAt Config.hardware (.verify false true) (marked [0, 0, 0, 0, 0]) =
        .next { filled 5 with res := 1, v := true } := ⟨rfl, rfl, rfl, rfl, rfl⟩

theorem witness_OppushAppendsToTheOperand :
    (staged (op .int []) (op .text [1, 2, 3, 4, 5, 6, 7])).opc.bytes.length < 8 ∧
      (staged (op .int []) (op .text [1, 2, 3, 4, 5, 6, 7])).opp.bytes.length < 8 ∧
      (getOperand .opc (staged (op .bytes [0, 1, 2, 3, 4, 5, 6, 7]) (op .none []))).bytes.length =
        8 := by decide

theorem witness_IntOperandEncodingIsMinimal :
    encOperand { tag := .int, bytes := [0, 0, 1, 0] } = some [1, 0] ∧
      encOperand { tag := .int, bytes := [0] } = some [0] := by decide

/-- A refusal by each operand, and a frame of each form of BUILD. -/
theorem witness_BuildAssemblesTheFrame :
    (staged (op .text []) (op .int [])).opc.tag = .text ∧ State.reset.opc.tag = .none ∧
      (staged (op .int []) (op .text [])).opp.tag = .text ∧
      encOperand (staged (op .int [0x86]) (op .none [])).opc = some [0x86] ∧
      encOperand (staged (op .int [0x86]) (op .bytes [])).opp = some [] := by decide

theorem witness_BuiltFrameLayout :
    exec (.build false) (staged (op .bytes [0x78]) (op .int [0, 1, 0])) =
        .next { staged (op .bytes [0x78]) (op .int [0, 1, 0]) with
          buf := [0xFF, 0x01, 0x78, 1, 0, 0, 0, 0, 0, 0x86], res := 0x86 } ∧
      encOperand (staged (op .bytes [0x78]) (op .int [0, 1, 0])).opc = some [0x78] ∧
      payloadBytes false (staged (op .bytes [0x78]) (op .int [0, 1, 0])) = some [1, 0] :=
  ⟨rfl, by decide, by decide⟩

theorem witness_BuiltFrameVerifies :
    exec (.build true) (staged (op .int [0x86]) (op .none [])) =
        .next { staged (op .int [0x86]) (op .none []) with
          buf := [0xFF, 0x01, 0x86, 0, 0, 0, 0, 0, 0x79], res := 0x79 } ∧
      (staged (op .int [0x86]) (op .none [])).err = 0 := ⟨rfl, by decide⟩

theorem witness_one_byte_windows :
    reply13.readByte 0 = some 0xAA ∧ reply13.readByte 12 = some 0x31 ∧ reply13.len < 13 + 1 ∧
      (withBuf [0xB5]).readByte 0 = some 0xB5 ∧ (0 : Nat) < 256 ∧ (255 : Nat) < 256 := by decide

theorem witness_Xu16_Xcenti :
    reply13.readByte 11 = some 0x88 ∧ reply13.readByte (11 + 1) = some 0x31 ∧
      reply13.len < 12 + 2 := by decide

theorem witness_XcentiDenotesTheFieldOverOneHundred :
    (withBuf [0x03, 0x20]).readByte 0 = some 0x03 ∧ (withBuf [0x03, 0x20]).readByte (0 + 1) = some 0x20 ∧
      exec (.xcenti 0) (withBuf [0x03, 0x20]) =
        .next { withBuf [0x03, 0x20] with res := 0x00080000 } := ⟨by decide, by decide, rfl⟩

theorem witness_XunitClassifiesTheByte :
    (withBuf [0x02]).readByte 0 = some 0x02 ∧ (withBuf [0x04]).readByte 0 = some 0x04 ∧
      (withBuf [0x08]).readByte 0 = some 0x08 ∧ (withBuf [0x0C]).readByte 0 = some 0x0C ∧
      (0x0C : Byte) ≠ 0x02 ∧ (0x0C : Byte) ≠ 0x04 ∧ (0x0C : Byte) ≠ 0x08 ∧
      (withBuf [0x02]).len < 1 + 1 := by decide

/-- All four maps: `{ Config.hardware with nibbleMap := m }`. -/
theorem witness_NibbleMapTable :
    (withBuf [0xB5]).readByte 0 = some 0xB5 ∧ (3 : Nat) < 4 ∧
      [NibbleMap.hiLoPlain, .loHiPlain, .hiPlainLoRev, .loPlainHiRev].map
          (fun m => { Config.hardware with nibbleMap := m }.nibbleMap) =
        [.hiLoPlain, .loHiPlain, .hiPlainLoRev, .loPlainHiRev] := by decide

theorem witness_NibblesRecoverTheByte :
    (withBuf [0xB5]).readByte 0 = some 0xB5 ∧
      execAt { Config.hardware with nibbleMap := .loPlainHiRev } (.xdp 0) (withBuf [0xB5]) =
        .next { withBuf [0xB5] with res := 5 } ∧
      execAt { Config.hardware with nibbleMap := .loPlainHiRev } (.xds 0) (withBuf [0xB5]) =
        .next { withBuf [0xB5] with res := 13 } := ⟨by decide, rfl, rfl⟩

theorem witness_XbitReadsTheBit :
    (0 : Nat) < 8 ∧ (7 : Nat) < 8 ∧ (withBuf [0xB5]).readByte 0 = some 0xB5 ∧
      (withBuf [0xB5]).len < 1 + 1 := by decide

theorem witness_ExtractorsCheckTheirWindow :
    windowOf (.xu16 11) = some (11, 2) ∧ 11 + 2 ≤ reply13.len ∧
      windowOf (.xu16 12) = some (12, 2) ∧ reply13.len < 12 + 2 ∧
      windowOf (.xbit 12 7) = some (12, 1) ∧ 12 + 1 ≤ reply13.len := by decide

/-- Two buffers that agree on the window at index 1 only. -/
theorem witness_ExtractorsReadOnlyTheirWindow :
    windowOf (.xunit 1) = some (1, 1) ∧
      exec (.xunit 1) (withBuf [9, 4]) = .next { withBuf [9, 4] with res := 2, u := true } ∧
      exec (.xunit 1) (marked [8, 4, 7]) = .next { withBuf [8, 4, 7] with res := 2, u := true } ∧
      1 + 1 ≤ (withBuf [9, 4]).len ∧ 1 + 1 ≤ (marked [8, 4, 7]).len ∧
      ∀ j, j < 1 → (withBuf [9, 4]).readByte (1 + j) = (marked [8, 4, 7]).readByte (1 + j) :=
  ⟨rfl, rfl, rfl, by decide, by decide, by decide⟩

theorem witness_ErrorsArePrecise :
    exec (.verify false true) { marked [1] with v := true } =
        .next { marked [1] with err := 1, faults := 0x02 } ∧
      { marked [1] with err := 1, faults := 0x02 }.err ≠ 0 ∧
      presentWord 0x02000000 busy = .next busy ∧ busy.err ≠ 0 := ⟨rfl, by decide, rfl, by decide⟩

theorem witness_PossibleErrorsAreExactlyTheTable :
    ErrorKind.checksumMismatch ∈ possibleErrors (.verify false true) ∧
      ErrorKind.bufferFull ∈ possibleErrors (.oppush .opp 0) ∧
      exec (.xu8 0) State.reset = .next { State.reset with err := 4, faults := 0x10 } ∧
      presentWord 0x40000000 State.reset = .next { State.reset with err := 4, faults := 0x10 } :=
  ⟨by decide, by decide, rfl, rfl⟩

theorem witness_FaultsAreSticky :
    exec .rst busy = .next { State.reset with pending := busy.pending } ∧
      exec (.xu8 9) { State.reset with faults := 0x02 } =
        .next { State.reset with err := 4, faults := 0x12 } ∧
      FaultsReservedZero busy ∧
      hostAct .resetPulse busy = .next { State.reset with pending := busy.pending } ∧
      hostAct (.command 0x01000000) busy = .next { State.reset with pending := busy.pending } ∧
      hostAct (.command 0x00000001) State.reset =
        .next { State.reset with err := 6, faults := 0x40 } := ⟨rfl, rfl, by decide, rfl, rfl, rfl⟩

/-- Each clause: RST, an append that completes and one that raises, a command that keeps BUF,
VERIFY, XUNIT past the end and inside. -/
theorem witness_FlagRules :
    exec .rst busy = .next { State.reset with pending := busy.pending } ∧
      bufEffect (.bpush 1) = .appends ∧ exec (.bpush 1) State.reset = .next (withBuf [1]) ∧
      exec (.bpush 1) (filled 64) = .next { filled 64 with err := 5, faults := 0x20 } ∧
      bufEffect .nop = .keeps ∧ exec .nop busy = .next { busy with err := 0 } ∧
      exec (.verify false true) { busy with err := 0 } = .next { busy with err := 0 } ∧
      exec (.xunit 5) { busy with err := 0 } = .next { busy with err := 4 } ∧
      exec (.xunit 0) (withBuf [4]) = .next { withBuf [4] with res := 2, u := true } :=
  ⟨rfl, rfl, rfl, rfl, rfl, rfl, rfl, rfl, rfl⟩

theorem witness_NonStoringCommandsKeepEveryByte :
    bufEffect (.csum true 0) = .keeps ∧
      exec (.csum true 0) (filled 4) = .next (filled 4) := ⟨rfl, rfl⟩

theorem witness_AppendingCommandsKeepEveryOtherByte :
    bufEffect .bpushr = .appends ∧ exec .bpushr (filled 1) = .next (filled 2) ∧
      exec .bpushr (filled 64) = .next { filled 64 with err := 5, faults := 0x20 } :=
  ⟨rfl, rfl, rfl⟩

theorem witness_RegistersChangeOnlyByTheirWriters :
    writesRes (.bpush 1) = false ∧ writesOperand .opp (.opset .opc .int) = false ∧
      exec (.bpush 1) State.reset = .next (withBuf [1]) ∧
      exec (.opset .opc .int) State.reset = .next (staged (op .int []) (op .none [])) ∧
      exec (.build true) State.reset = .next { State.reset with err := 2, faults := 0x04 } :=
  ⟨rfl, rfl, rfl, rfl, rfl⟩

theorem witness_FaultsNameTheErrorsOfTheRun :
    0x01000000 ∉ ([0x40000000, 0x02000000, 0x00000000] : List Word) ∧
      runWords [0x40000000, 0x02000000, 0x00000000] State.reset =
        .next { State.reset with faults := 0x50 } := ⟨by decide, rfl⟩

/-- The invariant holds in a state with an action queued, and a step from it. -/
theorem witness_EveryStepKeepsTheInvariant :
    busy.Inv Config.hardware ∧ step busy = .next { busy with pending := [] } := ⟨by decide, rfl⟩

/-- The smallest legal buffer, with three-byte operands, and BUILD at them. -/
theorem witness_EveryLegalBlockKeepsTheInvariant :
    { bufCap := 13, opndCap := 3, verifyMinLen := 4, nibbleMap := .loHiPlain : Config }.Legal ∧
      (staged (op .bytes [1, 2, 3]) (op .bytes [4, 5, 6])).Inv
        { bufCap := 13, opndCap := 3, verifyMinLen := 4, nibbleMap := .loHiPlain } ∧
      execAt { bufCap := 13, opndCap := 3, verifyMinLen := 4, nibbleMap := .loHiPlain }
          (.build false) (staged (op .bytes [1, 2, 3]) (op .bytes [4, 5, 6])) =
        .next { staged (op .bytes [1, 2, 3]) (op .bytes [4, 5, 6]) with
          buf := [0xFF, 1, 1, 2, 3, 4, 5, 6, 0, 0, 0, 0, 0xEA], res := 0xEA } :=
  ⟨by decide, by decide, rfl⟩

theorem witness_PseudoInstructionsLoadTheirOperands :
    0 < 256 ^ 8 ∧ 256 ^ 8 - 1 < 256 ^ 8 ∧ (List.replicate 64 (0 : Byte)).length ≤ 64 := by decide

end Sys2Proof.Tests
end

section
/-! PROOFS. The commands of every legal block keep the invariant (spec/00_scope.md R4, R5): one rule
per state operation, then one case per form a command can take (`Completed`, `Raised`). -/

namespace Sys2Proof.Machine

/-! ### The invariant and the state operations -/

/-- The bit of FAULTS an error entry sets is none of the reserved ones (R17). -/
theorem faultBit_reserved (k : ErrorKind) : k.faultBit &&& 0xFFFFFF81 = 0 := by
  cases k <;> decide

section
variable {c : Config} {s : State} (h : s.Inv c)
include h

theorem inv_complete : (complete s).Inv c := by
  obtain ⟨hbuf, hops, -, hfaults, -, hres, hv⟩ := h
  exact ⟨hbuf, hops, Nat.zero_le _, hfaults, fun hne => absurd rfl hne, hres, hv⟩

theorem inv_raise (k : ErrorKind) : (raise k s).Inv c := by
  obtain ⟨hbuf, hops, -, hfaults, -, hres, hv⟩ := h
  have herr : ErrLegal (raise k s) := (raise_err_toNat k s).trans_le k.code_pos.2
  have hfaults' : FaultsReservedZero (raise k s) := by
    rw [FaultsReservedZero, raise_faults, BitVec.and_or_distrib_right, hfaults, faultBit_reserved,
      BitVec.or_self]
  have hrec : ErrRecorded (raise k s) := fun _ =>
    (raise_faults_bit k s _).mpr (.inr (raise_err_toNat k s).symm)
  exact ⟨hbuf, hops, herr, hfaults', hrec, hres, hv⟩

theorem inv_setRes {x : Word} (hx : x.toNat < 2 ^ 26) : (setRes x s).Inv c := by
  obtain ⟨hbuf, hops, herr, hfaults, hrec, -, hv⟩ := h
  exact ⟨hbuf, hops, herr, hfaults, hrec, hx, hv⟩

theorem inv_setU (b : Bool) : (setU b s).Inv c := h

theorem inv_setV_false : (setV false s).Inv c := by
  obtain ⟨hbuf, hops, herr, hfaults, hrec, hres, -⟩ := h
  exact ⟨hbuf, hops, herr, hfaults, hrec, hres, nofun⟩

/-- R86: `V <- 1` keeps the invariant when the buffer verifies from one of the two starts. -/
theorem inv_setV_true {ifb : Bool} (hl : c.verifyMinLen ≤ s.len)
    (hm : verifyMatch s.buf ifb = true) : (setV true s).Inv c := by
  obtain ⟨hbuf, hops, herr, hfaults, hrec, hres, -⟩ := h
  have hor : (verifyMatch s.buf false || verifyMatch s.buf true) = true := by
    cases ifb <;> simp [hm]
  exact ⟨hbuf, hops, herr, hfaults, hrec, hres, fun _ => ⟨hl, hor⟩⟩

theorem inv_replaceBuf {f : List Byte} (hf : f.length ≤ c.bufCap) : (replaceBuf f s).Inv c := by
  obtain ⟨-, hops, herr, hfaults, hrec, hres, -⟩ := h
  exact ⟨hf, hops, herr, hfaults, hrec, hres, nofun⟩

theorem inv_putOperand (sel : OperandSel) {o : Operand} (ho : o.bytes.length ≤ c.opndCap) :
    (putOperand sel o s).Inv c := by
  obtain ⟨hbuf, ⟨hopc, hopp⟩, hrest⟩ := h
  cases sel with
  | opc => exact ⟨hbuf, ⟨ho, hopp⟩, hrest⟩
  | opp => exact ⟨hbuf, ⟨hopc, ho⟩, hrest⟩

/-- R5: the frame BUILD writes fits in the buffer of a legal block. -/
theorem frame_length_le (hc : c.Legal) {dp : Bool} {a b : List Byte} (k : Byte)
    (ha : encOperand s.opc = some a) (hb : payloadBytes dp s = some b) :
    (frameBody a b ++ [k]).length ≤ c.bufCap := by
  obtain ⟨-, -, hfit, hpos, -, -⟩ := hc
  obtain ⟨-, ⟨hopc, hopp⟩, -⟩ := h
  have hla := encOperand_length_le ha
  have hlb := payloadBytes_length_le hb
  rw [List.length_append, frameBody_length, List.length_singleton]
  omega

end

theorem inv_resetBlock (c : Config) (s : State) : (resetBlock s).Inv c :=
  ⟨Nat.zero_le _, ⟨Nat.zero_le _, Nat.zero_le _⟩, Nat.zero_le _, BitVec.zero_and,
    fun hne => absurd rfl hne, Nat.two_pow_pos _, nofun⟩

/-! ### The results of R113 are narrow -/

theorem ofNat_toNat_lt {n : Nat} (hn : n < 2 ^ 26) : (BitVec.ofNat 32 n).toNat < 2 ^ 26 :=
  (Nat.mod_le _ _).trans_lt hn

theorem byte_setWidth_toNat_lt (b : Byte) : (b.setWidth 32).toNat < 2 ^ 26 := by
  rw [BitVec.toNat_setWidth]
  have := b.isLt
  omega

theorem centiResult_be16_lt (hi lo : Byte) : (centiResult (be16 hi lo)).toNat < 2 ^ 26 := by
  have hraw := be16_lt hi lo
  rw [centiResult_toNat hraw]
  omega

/-! ### The invariant and the commands -/

theorem Completed.inv {c : Config} {i : Instr} {s t : State} (hc : c.Legal) (h : s.Inv c)
    (hi : Completed c s i t) : t.Inv c := by
  cases hi with
  | nop => exact inv_complete h
  | rst => exact inv_resetBlock c s
  | bclr => exact inv_complete (inv_replaceBuf h (Nat.zero_le _))
  | bpush _ hl => exact inv_complete (inv_replaceBuf h (List.length_append.trans_le hl))
  | bpushr hl => exact inv_complete (inv_replaceBuf h (List.length_append.trans_le hl))
  | csum => exact inv_complete (inv_setRes h (byte_setWidth_toNat_lt _))
  | verifyMatch _ _ hl hm =>
    exact inv_complete (inv_setRes (inv_setV_true h hl hm) (by decide))
  | verifyMismatch => exact inv_complete (inv_setRes (inv_setV_false h) (by decide))
  | opset sel => exact inv_complete (inv_putOperand h sel (Nat.zero_le _))
  | oppush sel _ hl => exact inv_complete (inv_putOperand h sel (List.length_append.trans_le hl))
  | build _ _ _ k ha hb =>
    have hframe := inv_replaceBuf h (frame_length_le h hc k ha hb)
    exact inv_complete (inv_setRes hframe (byte_setWidth_toNat_lt k))
  | xu8 => exact inv_complete (inv_setRes h (byte_setWidth_toNat_lt _))
  | xu16 _ hi lo =>
    exact inv_complete (inv_setRes h (ofNat_toNat_lt ((be16_lt hi lo).trans (by decide))))
  | xcenti => exact inv_complete (inv_setRes h (centiResult_be16_lt _ _))
  | xunit _ b =>
    have hres := ofNat_toNat_lt ((unitIndex_lt b).trans (by decide))
    exact inv_complete (inv_setU (inv_setRes h hres) _)
  | xdp _ b =>
    exact inv_complete (inv_setRes h (ofNat_toNat_lt ((decimalPlaces_lt _ b).trans (by decide))))
  | xds _ b =>
    exact inv_complete (inv_setRes h (ofNat_toNat_lt ((dataSign_lt _ b).trans (by decide))))
  | xbit _ k b =>
    exact inv_complete (inv_setRes h (ofNat_toNat_lt ((bitOf_lt b k).trans (by decide))))

theorem Raised.inv {c : Config} {i : Instr} {s t : State} (h : s.Inv c) (hi : Raised c s i t) :
    t.Inv c := by
  obtain ⟨k, -, rfl⟩ := hi.entry
  split
  · exact inv_raise (inv_setV_false h) k
  · exact inv_raise h k

/-- Settles O57, from the rule of each state operation and R5's bound on the frame of BUILD. -/
theorem everyLegalBlockKeepsTheInvariant : Obligations.EveryLegalBlockKeepsTheInvariant := by
  intro c i s t hc h hexec
  obtain hi | hi := execAt_next hexec
  · exact hi.inv hc h
  · exact hi.inv h

end Sys2Proof.Machine
end

section
/-! PROOFS. Steps, the host's queue and runs of words (spec/00_scope.md R9). -/

namespace Sys2Proof.Machine

/-! ### One command word and the queue -/

theorem exec_withPending {i : Instr} {s t : State} (p : List HostAction)
    (h : exec i s = .next t) : exec i { s with pending := p } = .next { t with pending := p } := by
  rw [exec_eq_execAt] at h ⊢
  exact execAt_withPending p h

theorem presentWord_ok {w : Word} {i : Instr} (h : decode w = .ok i) (s : State) :
    presentWord w s = exec i s := by
  simp only [presentWord, h]

theorem presentWord_error {w : Word} {e : IllegalWord} (h : decode w = .error e) (s : State) :
    presentWord w s = .next (raise .illegalCommand s) := by
  simp only [presentWord, h]

/-- R60, R128: presenting a word always answers a next state. -/
theorem presentWord_answers (w : Word) (s : State) : ∃ t, presentWord w s = .next t := by
  cases hd : decode w with
  | error e => exact ⟨_, presentWord_error hd s⟩
  | ok i =>
    obtain ⟨t, ht, -⟩ := execAt_cases Config.hardware i s
    exact ⟨t, by rw [presentWord_ok hd, exec_eq_execAt, ht]⟩

/-- No word's effect reads the host's queue. -/
theorem presentWord_withPending {w : Word} {s t : State} (p : List HostAction)
    (h : presentWord w s = .next t) :
    presentWord w { s with pending := p } = .next { t with pending := p } := by
  cases hd : decode w with
  | error e =>
    rw [presentWord_error hd] at h ⊢
    cases h
    rfl
  | ok i =>
    rw [presentWord_ok hd] at h ⊢
    exact exec_withPending p h

/-- Presenting a word leaves the host's queue as it is. -/
theorem presentWord_pending {w : Word} {s t : State} (h : presentWord w s = .next t) :
    t.pending = s.pending := by
  have hself : presentWord w s = .next { t with pending := s.pending } :=
    presentWord_withPending s.pending h
  rw [h] at hself
  injection hself with ht
  rw [ht]

/-! ### One host action and one step -/

/-- R128: every host action answers a next state; carrying it out leaves the queue as it is. -/
theorem hostAct_answers (a : HostAction) (s : State) :
    ∃ t, hostAct a s = .next t ∧ t.pending = s.pending := by
  have hword (w : Word) : ∃ t, presentWord w s = .next t ∧ t.pending = s.pending := by
    obtain ⟨t, ht⟩ := presentWord_answers w s
    exact ⟨t, ht, presentWord_pending ht⟩
  cases a with
  | command w => exact hword w
  | busWrite offset w =>
    by_cases ho : offset = cmdOffset
    · rw [hostAct, if_pos ho]
      exact hword w
    · exact ⟨s, if_neg ho, rfl⟩
  | busRead offset => exact ⟨s, rfl, rfl⟩
  | resetPulse => exact ⟨_, rfl, resetBlock_pending s⟩

theorem step_of_pending_nil {s : State} (h : s.pending = []) : step s = .next s := by
  simp only [step, serveHost, h]

/-- A queued command word is presented by the next step. -/
theorem step_of_command (w : Word) (rest : List HostAction) (s : State) :
    step { s with pending := .command w :: rest } = presentWord w { s with pending := rest } := rfl

theorem step_of_pending_cons {s : State} {a : HostAction} {rest : List HostAction}
    (h : s.pending = a :: rest) : step s = hostAct a { s with pending := rest } := by
  simp only [step, serveHost, h, takeAction, List.tail_cons]

/-- Settles O9, by whether an action is queued. -/
theorem everyStepAnswersAndTakesOneAction : Obligations.EveryStepAnswersAndTakesOneAction := by
  intro s
  refine ⟨?_, step_of_pending_nil⟩
  cases hp : s.pending with
  | nil => exact ⟨s, step_of_pending_nil hp, hp⟩
  | cons a rest =>
    rw [step_of_pending_cons hp]
    exact hostAct_answers a _

/-! ### Runs of queued words -/

/-- A run whose first step answers `t` goes on from `t`. -/
theorem run_succ_of_step {s t : State} (n : Nat) (h : step s = .next t) :
    Host.Core.run core (n + 1) s = Host.Core.run core n t := by
  have hcore : core.step s = .next t := h
  simp only [Host.Core.run, hcore]

/-- A fold whose first word answers `t` goes on from `t`. -/
theorem runWords_cons_of_next {w : Word} {s t : State} (ws : List Word)
    (h : presentWord w s = .next t) : runWords (w :: ws) s = runWords ws t := by
  rw [runWords, h]

/-- Settles O10, by induction on the list of words: a word does not read the queue, so the words and
actions behind it make no difference to it. -/
theorem queuedWordsRunAsTheFold : Obligations.QueuedWordsRunAsTheFold := by
  intro ws rest s
  induction ws generalizing s with
  | nil => rfl
  | cons w ws ih =>
    obtain ⟨t, ht⟩ := presentWord_answers w { s with pending := rest }
    have hword := presentWord_withPending (ws.map HostAction.command ++ rest) ht
    have hstep : step { s with pending := (w :: ws).map HostAction.command ++ rest } =
        .next { t with pending := ws.map HostAction.command ++ rest } :=
      (step_of_command w _ s).trans hword
    have hkept : t.pending = rest := presentWord_pending ht
    rw [List.length_cons, run_succ_of_step _ hstep, ih, runWords_cons_of_next _ ht, ← hkept]

/-! ### A step and the decoder -/

/-- A 32-bit row of the opcode table is its own command word (log entry 12). -/
theorem tableWord_toNat (w : Word) : tableWord 32 w.toNat = w := by
  rw [tableWord, Nat.mod_eq_of_lt w.isLt, BitVec.ofNat_toNat, BitVec.setWidth_eq]

theorem step_queueWord (w : Word) (s : State) : step (queueWord w s) = presentWord w s :=
  step_of_command w s.pending s

/-- Settles O8, by the form in which the host presents the word. -/
theorem stepRunsTheDecodedCommand : Obligations.StepRunsTheDecodedCommand := by
  refine ⟨fun s a rest hp => step_of_pending_cons hp, fun s w rest i hd => ⟨?_, ?_⟩⟩
  · rintro (hp | hp)
    · exact (step_of_pending_cons hp).trans (presentWord_ok hd _)
    · exact (step_of_pending_cons hp).trans (presentWord_ok hd _)
  · rw [State.withFetchWord, tableWord_toNat, step_queueWord, presentWord_ok hd]

/-- Settles O58: the defaults are written out in `Config.hardware`, and each arm of `exec` is the
parametric arm at them. -/
theorem hardwareIsTheDefaultBlock : Obligations.HardwareIsTheDefaultBlock :=
  ⟨rfl, by decide, exec_eq_execAt⟩

end Sys2Proof.Machine
end

section
/-! PROOFS. The invariant over the host's steps (spec/10_state.md R10 to R18), reset (R22) and host
reads (R21). -/

namespace Sys2Proof.Machine

/-! ### What one word and one host action can do -/

/-- Everything presenting a word can do: the command it decodes to, or the error entry of R58. -/
theorem presentWord_cases {w : Word} {s t : State} (h : presentWord w s = .next t) :
    (∃ i, decode w = .ok i ∧ exec i s = .next t) ∨
      ((∃ e, decode w = .error e) ∧ t = raise .illegalCommand s) := by
  cases hd : decode w with
  | ok i => exact .inl ⟨i, rfl, presentWord_ok hd s ▸ h⟩
  | error e =>
    rw [presentWord_error hd] at h
    cases h
    exact .inr ⟨⟨e, rfl⟩, rfl⟩

/-- Everything a host action can do: nothing, the effect of one word, or reset (R20, R21, R140). -/
theorem hostAct_cases {a : HostAction} {s t : State} (h : hostAct a s = .next t) :
    t = s ∨ (∃ w, presentWord w s = .next t) ∨ t = resetBlock s := by
  cases a with
  | command w => exact .inr (.inl ⟨w, h⟩)
  | busWrite offset w =>
    by_cases ho : offset = cmdOffset
    · rw [hostAct, if_pos ho] at h
      exact .inr (.inl ⟨w, h⟩)
    · rw [hostAct, if_neg ho] at h
      cases h
      exact .inl rfl
  | busRead offset => cases h; exact .inl rfl
  | resetPulse => cases h; exact .inr (.inr rfl)

/-! ### The invariant -/

theorem hardware_legal : Config.hardware.Legal := by decide

/-- A presented word keeps the invariant of this hardware, whatever the word. -/
theorem presentWord_inv {w : Word} {s t : State} (h : s.Inv Config.hardware)
    (hw : presentWord w s = .next t) : t.Inv Config.hardware := by
  obtain ⟨i, -, hexec⟩ | ⟨-, rfl⟩ := presentWord_cases hw
  · rw [exec_eq_execAt] at hexec
    exact everyLegalBlockKeepsTheInvariant _ i s t hardware_legal h hexec
  · exact inv_raise h _

theorem hostAct_inv {a : HostAction} {s t : State} (h : s.Inv Config.hardware)
    (ha : hostAct a s = .next t) : t.Inv Config.hardware := by
  obtain rfl | ⟨w, hw⟩ | rfl := hostAct_cases ha
  · exact h
  · exact presentWord_inv h hw
  · exact inv_resetBlock _ s

/-- The invariant says nothing of the host's queue (log entry 2). -/
theorem inv_withPending {c : Config} {s : State} (p : List HostAction) (h : s.Inv c) :
    { s with pending := p }.Inv c := h

/-- Settles O56, by the host action the step takes; a command keeps the invariant by O57. -/
theorem everyStepKeepsTheInvariant : Obligations.EveryStepKeepsTheInvariant := by
  intro s t h hstep
  cases hp : s.pending with
  | nil =>
    rw [step_of_pending_nil hp] at hstep
    cases hstep
    exact h
  | cons a rest =>
    rw [step_of_pending_cons hp] at hstep
    exact hostAct_inv (inv_withPending rest h) hstep

/-! ### Reset and host reads -/

/-- Settles O55: reset clears every element, whatever the block held. -/
theorem resetMeetsTheInvariant : Obligations.ResetMeetsTheInvariant :=
  inv_resetBlock Config.hardware State.reset

/-- Settles O14: R22's values are written out in `State.reset`; LEN and E follow from them. -/
theorem resetValues : Obligations.ResetValues :=
  ⟨rfl, rfl, rfl, rfl, rfl, rfl, rfl, rfl, rfl, rfl⟩

/-- Settles O11: the step takes the read from the queue, and a read changes nothing else. -/
theorem hostReadHasNoSideEffect : Obligations.HostReadHasNoSideEffect :=
  fun _ _ _ hp => step_of_pending_cons hp

end Sys2Proof.Machine
end

section
/-! PROOFS. The host address map and the register views (spec/10_state.md R19, R20). -/

namespace Sys2Proof.Machine

/-! ### The address map -/

/-- The offsets of the registers that read their views (R20); CMD reads 0 and is none of them. -/
abbrev viewOffsets : List Nat := [0x004, 0x008, 0x00C, 0x010, 0x014, 0x018, 0x01C]

/-- Off the register views a host read is a read of BUFWIN or 0. -/
theorem hostRead_of_not_view {offset : Nat} (h : offset ∉ viewOffsets) (s : State) :
    hostRead s offset =
      if 0x100 ≤ offset ∧ offset < 0x100 + 255 then bufWindowView s (offset - 0x100) else 0 := by
  simp only [List.mem_cons, List.not_mem_nil, not_or] at h
  simp only [hostRead, h, if_false]

theorem hostRead_bufWindow {i : Nat} (hi : i < 255) (s : State) :
    hostRead s (0x100 + i) = bufWindowView s i := by
  have hview : 0x100 + i ∉ viewOffsets := by simp; omega
  rw [hostRead_of_not_view hview, if_pos (by omega), Nat.add_sub_cancel_left]

theorem hostRead_unmapped {offset : Nat} (hview : offset ∉ viewOffsets)
    (hwin : offset < 0x100 ∨ 0x100 + 255 ≤ offset) (s : State) : hostRead s offset = 0 := by
  rw [hostRead_of_not_view hview, if_neg (by omega)]

theorem bufWindowView_some {s : State} {i : Nat} {b : Byte} (h : s.readByte i = some b) :
    bufWindowView s i = b.setWidth 32 := by
  rw [bufWindowView, h]

theorem bufWindowView_beyond {s : State} {i : Nat} (h : s.len ≤ i) : bufWindowView s i = 0 := by
  rw [bufWindowView, readByte_eq_none_iff.mpr h]

/-- Settles O12, by the classes of offsets: the registers, the two parts of BUFWIN, all others. -/
theorem hostAddressMap : Obligations.HostAddressMap := by
  intro s
  refine ⟨rfl, rfl, rfl, rfl, rfl, rfl, rfl, rfl, ?_, ?_, ?_, ?_, ?_⟩
  · intro i b hi hb
    rw [hostRead_bufWindow hi, bufWindowView_some hb]
  · intro i hi hl
    rw [hostRead_bufWindow hi, bufWindowView_beyond hl]
  · exact fun offset hview hwin => hostRead_unmapped hview hwin s
  · exact fun w => rfl
  · exact fun offset w ho => if_neg ho

/-! ### The fields of the register views -/

theorem e_toNat (s : State) : s.e.toNat = if s.err = 0 then 0 else 1 := by
  by_cases h : s.err = 0
  · rw [State.e, if_pos h, decide_eq_false (not_not_intro h), Bool.toNat_false]
  · rw [State.e, if_neg h, decide_eq_true h, Bool.toNat_true]

theorem statusView_toNat (s : State) :
    (statusView s).toNat = s.e.toNat + 2 * s.v.toNat + 4 * s.u.toNat := by
  have he := s.e.toNat_le
  have hv := s.v.toNat_le
  have hu := s.u.toNat_le
  rw [statusView, BitVec.toNat_ofNat]
  omega

theorem errView_toNat (s : State) : (errView s).toNat = s.err.toNat := by
  rw [errView, BitVec.toNat_setWidth]
  have := s.err.isLt
  omega

theorem lenView_toNat {s : State} (h : s.buf.length ≤ 255) : (lenView s).toNat = s.buf.length := by
  rw [lenView, BitVec.toNat_ofNat, State.len]
  omega

theorem operandView_toNat {o : Operand} (h : o.bytes.length ≤ 255) :
    (operandView o).toNat = o.tag.code + 2 ^ 8 * o.bytes.length := by
  have := o.tag.code_lt
  rw [operandView, BitVec.toNat_ofNat]
  omega

/-- A one-bit field is the bit. -/
theorem bits_self (w : Word) (n : Nat) : bits w n n = (w.getLsbD n).toNat := by
  rw [bits, Nat.add_sub_cancel_left, pow_one, BitVec.getLsbD, Nat.toNat_testBit]

/-- R17: a field of FAULTS within the reserved bits reads 0. -/
theorem faults_reserved_field {s : State} (h : FaultsReservedZero s) {hi lo : Nat}
    (hm : bits (0xFFFFFF81 : Word) hi lo = 2 ^ (hi + 1 - lo) - 1) : bits s.faults hi lo = 0 := by
  rw [← bits_and_ones s.faults _ hm, h]
  simp [bits]

theorem getOperand_length_le {c : Config} {s : State} (h : OperandsFit c s) (sel : OperandSel) :
    (getOperand sel s).bytes.length ≤ c.opndCap := by
  cases sel with
  | opc => exact h.1
  | opp => exact h.2

theorem operandView_fields {o : Operand} (h : o.bytes.length ≤ 255) :
    bits (operandView o) 1 0 = o.tag.code ∧ bits (operandView o) 7 2 = 0 ∧
      bits (operandView o) 15 8 = o.bytes.length ∧ bits (operandView o) 31 16 = 0 := by
  have := o.tag.code_lt
  simp only [bits, operandView_toNat h]
  omega

theorem statusView_fields (s : State) :
    bits (statusView s) 0 0 = s.e.toNat ∧ bits (statusView s) 1 1 = s.v.toNat ∧
      bits (statusView s) 2 2 = s.u.toNat ∧ bits (statusView s) 31 3 = 0 := by
  have he := s.e.toNat_le
  have hv := s.v.toNat_le
  have hu := s.u.toNat_le
  simp only [bits, statusView_toNat]
  omega

theorem errView_fields (s : State) :
    bits (errView s) 3 0 = s.err.toNat ∧ bits (errView s) 31 4 = 0 := by
  have := s.err.isLt
  simp only [bits, errView_toNat]
  omega

theorem lenView_fields {s : State} (h : s.buf.length ≤ 255) :
    bits (lenView s) 7 0 = s.buf.length ∧ bits (lenView s) 31 8 = 0 := by
  simp only [bits, lenView_toNat h]
  omega

/-- Settles O13, view by view; the invariant bounds the lengths and clears FAULTS' reserved bits. -/
theorem registerViewFields : Obligations.RegisterViewFields := by
  intro s ⟨hbuf, hops, _, hfaults, _⟩
  obtain ⟨he, hv, hu, hstatus⟩ := statusView_fields s
  obtain ⟨herr, herr'⟩ := errView_fields s
  obtain ⟨hlen, hlen'⟩ := lenView_fields (hbuf.trans (by decide : (64 : Nat) ≤ 255))
  have hbit0 : bits s.faults 0 0 = 0 := faults_reserved_field hfaults (by decide)
  have hhigh : bits s.faults 31 7 = 0 := faults_reserved_field hfaults (by decide)
  refine ⟨he.trans (e_toNat s), hv, hu, hstatus, herr, herr', hbit0, hhigh,
    fun c _ _ => bits_self s.faults c, rfl, hlen, hlen', fun sel => operandView_fields ?_⟩
  exact (getOperand_length_le hops sel).trans (by decide : (8 : Nat) ≤ 255)

end Sys2Proof.Machine
end

section
/-! PROOFS. RES, the operand registers and FAULTS: which commands write them (spec/10_state.md
section 1, R17). -/

namespace Sys2Proof.Machine

variable {c : Config} {i : Instr} {s t : State}

/-! ### What a command that raises leaves as it was -/

/-- A command that raises writes at most V beside the error entry (R86, R124). -/
theorem Raised.eq_raise_setV (h : Raised c s i t) : ∃ k, t = raise k (setV t.v s) := by
  obtain ⟨k, -, rfl⟩ := h.entry
  refine ⟨k, ?_⟩
  split <;> rfl

theorem Raised.res_eq (h : Raised c s i t) : t.res = s.res := by
  obtain ⟨k, e⟩ := h.eq_raise_setV
  rw [e, raise_res, setV_res]

theorem Raised.getOperand_eq (h : Raised c s i t) (sel : OperandSel) :
    getOperand sel t = getOperand sel s := by
  obtain ⟨k, e⟩ := h.eq_raise_setV
  rw [e, getOperand_raise, getOperand_setV]

theorem Raised.buf_eq (h : Raised c s i t) : t.buf = s.buf := by
  obtain ⟨k, e⟩ := h.eq_raise_setV
  rw [e, raise_buf, setV_buf]

theorem Raised.u_eq (h : Raised c s i t) : t.u = s.u := by
  obtain ⟨k, e⟩ := h.eq_raise_setV
  rw [e, raise_u, setV_u]

/-! ### What a command that completes leaves as it was -/

theorem Completed.res_eq (h : Completed c s i t) (hw : writesRes i = false) : t.res = s.res := by
  cases h with
  | nop | bclr | bpush | bpushr => rfl
  | opset | oppush => rw [complete_res, putOperand_res]
  | _ => cases hw

theorem Completed.getOperand_eq (h : Completed c s i t) {sel : OperandSel}
    (hw : writesOperand sel i = false) : getOperand sel t = getOperand sel s := by
  cases h with
  | rst => cases hw
  | opset r | oppush r =>
    rw [getOperand_complete]
    exact getOperand_putOperand_ne (of_decide_eq_false hw) _ s
  | _ => simp only [getOperand_complete, getOperand_setRes, getOperand_setV, getOperand_setU,
      getOperand_replaceBuf]

theorem Completed.faults_eq (h : Completed c s i t) (hi : i ≠ .rst) : t.faults = s.faults := by
  cases h with
  | rst => exact absurd rfl hi
  | opset | oppush => rw [complete_faults, putOperand_faults]
  | _ => rfl

/-- No command touches the host's queue. -/
theorem exec_pending (h : exec i s = .next t) : t.pending = s.pending := by
  have hself : exec i s = .next { t with pending := s.pending } := exec_withPending s.pending h
  rw [h] at hself
  injection hself with ht
  rw [ht]

/-- Settles O53: a completing command leaves the registers it is not listed for, and one that raises
leaves them all. -/
theorem registersChangeOnlyByTheirWriters : Obligations.RegistersChangeOnlyByTheirWriters := by
  intro i s t hexec
  obtain hi | hi := exec_next hexec
  · have hres (hw : writesRes i = false ∨ t.err ≠ 0) : t.res = s.res :=
      hi.res_eq (hw.resolve_right (not_not_intro hi.err_eq))
    have hop (sel : OperandSel) (hw : writesOperand sel i = false ∨ t.err ≠ 0) :
        getOperand sel t = getOperand sel s :=
      hi.getOperand_eq (hw.resolve_right (not_not_intro hi.err_eq))
    exact ⟨hres, hop, exec_pending hexec⟩
  · exact ⟨fun _ => hi.res_eq, fun sel _ => hi.getOperand_eq sel, exec_pending hexec⟩

/-! ### FAULTS gains the bit of the error raised -/

/-- R17: FAULTS keeps every bit and gains the bit of the error now in ERR, and no other. -/
def FaultsGainErr (s t : State) : Prop :=
  ∀ n, t.faults.getLsbD n = true ↔ s.faults.getLsbD n = true ∨ (t.err ≠ 0 ∧ t.err.toNat = n)

theorem faultsGainErr_of_completed (herr : t.err = 0) (hf : t.faults = s.faults) :
    FaultsGainErr s t := by
  intro n
  simp only [hf, herr, ne_eq, not_true, false_and, or_false]

theorem faultsGainErr_raise (k : ErrorKind) (s : State) : FaultsGainErr s (raise k s) := by
  intro n
  rw [raise_faults_bit, raise_err_toNat, and_iff_right (raise_err_ne_zero k s)]

theorem Raised.faultsGainErr (h : Raised c s i t) : FaultsGainErr s t := by
  obtain ⟨k, e⟩ := h.eq_raise_setV
  rw [e]
  exact faultsGainErr_raise k (setV t.v s)

theorem exec_rst_faults (h : exec .rst s = .next t) : t.faults = 0 := by
  cases h
  exact resetBlock_faults s

theorem exec_faultsGainErr (h : exec i s = .next t) (hi : i ≠ .rst) : FaultsGainErr s t := by
  obtain hc | hr := exec_next h
  · exact faultsGainErr_of_completed hc.err_eq (hc.faults_eq hi)
  · exact hr.faultsGainErr

/-! ### The word of RST -/

/-- RST has one command word (R52): opcode 0x01 with bits 23 to 0 reserved; the other rows decode to
other commands. -/
theorem decode_eq_rst_iff {w : Word} : decode w = .ok .rst ↔ w = 0x01000000 := by
  refine ⟨fun h => ?_, fun h => h ▸ rfl⟩
  have hw : bits w 31 24 = 1 ∧ bits w 23 0 = 0 := by
    unfold decode at h
    split at h
    case h_2 hop => exact ⟨hop, (checkReserved_ok_iff.mp h).1⟩
    all_goals simp [checkReserved_ok_iff] at h
  obtain ⟨hop, hr⟩ := hw
  rw [← word_eq_mkWord w, hop, hr]
  rfl

theorem presentWord_rst_faults (h : presentWord 0x01000000 s = .next t) : t.faults = 0 := by
  rw [presentWord_ok (decode_eq_rst_iff.mpr rfl)] at h
  exact exec_rst_faults h

/-- An illegal word gains the bit of `IllegalCommand`; every other word but RST's is a command's. -/
theorem presentWord_faultsGainErr {w : Word} (h : presentWord w s = .next t)
    (hw : w ≠ 0x01000000) : FaultsGainErr s t := by
  obtain ⟨i, hd, hexec⟩ | ⟨-, rfl⟩ := presentWord_cases h
  · refine exec_faultsGainErr hexec ?_
    rintro rfl
    exact hw (decode_eq_rst_iff.mp hd)
  · exact faultsGainErr_raise _ s

/-! ### The reserved bits of FAULTS -/

theorem faultsReservedZero_raise (k : ErrorKind) (h : FaultsReservedZero s) :
    FaultsReservedZero (raise k s) := by
  rw [FaultsReservedZero, raise_faults, BitVec.and_or_distrib_right, h, faultBit_reserved,
    BitVec.or_self]

theorem faultsReservedZero_resetBlock (s : State) : FaultsReservedZero (resetBlock s) :=
  BitVec.zero_and

theorem exec_faultsReservedZero (h : exec i s = .next t)
    (hs : FaultsReservedZero s) : FaultsReservedZero t := by
  obtain hc | hr := exec_next h
  · by_cases hi : i = .rst
    · subst hi
      cases h
      exact faultsReservedZero_resetBlock s
    · rw [FaultsReservedZero, hc.faults_eq hi]
      exact hs
  · obtain ⟨k, e⟩ := hr.eq_raise_setV
    rw [e]
    exact faultsReservedZero_raise (s := setV t.v s) k hs

theorem hostAct_faultsReservedZero {a : HostAction} (h : hostAct a s = .next t)
    (hs : FaultsReservedZero s) : FaultsReservedZero t := by
  obtain rfl | ⟨w, hw⟩ | rfl := hostAct_cases h
  · exact hs
  · obtain ⟨i, -, hexec⟩ | ⟨-, rfl⟩ := presentWord_cases hw
    · exact exec_faultsReservedZero hexec hs
    · exact faultsReservedZero_raise _ hs
  · exact faultsReservedZero_resetBlock s

/-- Settles O49: commands, then host actions; a word is RST's exactly when it decodes to RST. -/
theorem faultsAreSticky : Obligations.FaultsAreSticky := by
  refine ⟨fun i s t hexec => ⟨?_, exec_faultsGainErr hexec⟩,
    fun a s t ha => ⟨hostAct_faultsReservedZero ha, ?_, ?_⟩⟩
  · rintro rfl
    exact exec_rst_faults hexec
  · rintro rfl
    cases ha
    exact resetBlock_faults s
  · rintro w rfl
    refine ⟨?_, presentWord_faultsGainErr ha⟩
    rintro rfl
    exact presentWord_rst_faults ha

end Sys2Proof.Machine
end

section
/-! PROOFS. The flags V, U and E (spec/10_state.md R15). -/

namespace Sys2Proof.Machine

variable {c : Config} {i : Instr} {s t : State}

/-! ### V -/

theorem Completed.v_of_changes (h : Completed c s i t)
    (hb : bufEffect i ≠ .keeps) : t.v = false := by
  cases h with
  | rst | bclr | bpush | bpushr | build => rfl
  | _ => exact absurd rfl hb

theorem Completed.v_of_keeps (h : Completed c s i t)
    (hb : bufEffect i = .keeps) (hv : i.mnemonic ≠ .VERIFY) : t.v = s.v := by
  cases h with
  | rst | bclr | bpush | bpushr | build => cases hb
  | verifyMatch | verifyMismatch => exact absurd rfl hv
  | opset | oppush => rw [complete_v, putOperand_v]
  | _ => rfl

/-- R86: a VERIFY that completes puts its outcome in V and in RES. -/
theorem Completed.v_of_verify (h : Completed c s i t)
    (hv : i.mnemonic = .VERIFY) : t.v = true ↔ t.res = 1 := by
  cases h with
  | verifyMatch => exact iff_of_true rfl rfl
  | verifyMismatch => exact iff_of_false nofun (by decide : (0 : Word) ≠ 1)
  | _ => cases hv

theorem Completed.buf_of_keeps (h : Completed c s i t)
    (hb : bufEffect i = .keeps) : t.buf = s.buf := by
  cases h with
  | rst | bclr | bpush | bpushr | build => cases hb
  | opset | oppush => rw [complete_buf, putOperand_buf]
  | _ => rfl

theorem Raised.v_eq (h : Raised c s i t) (hv : i.mnemonic ≠ .VERIFY) : t.v = s.v := by
  obtain ⟨k, -, rfl⟩ := h.entry
  rw [if_neg hv, raise_v]

theorem Raised.v_of_verify (h : Raised c s i t) (hv : i.mnemonic = .VERIFY) : t.v = false := by
  obtain ⟨k, -, rfl⟩ := h.entry
  rw [if_pos hv, raise_v, setV_v]

/-- VERIFY is none of the commands that change BUF (R33). -/
theorem mnemonic_ne_verify {i : Instr} (hb : bufEffect i ≠ .keeps) : i.mnemonic ≠ .VERIFY := by
  cases i with
  | verify => exact absurd rfl hb
  | _ => nofun

/-! ### U and E -/

theorem Completed.u_eq (h : Completed c s i t)
    (hx : i.mnemonic ≠ .XUNIT) (hr : i ≠ .rst) : t.u = s.u := by
  cases h with
  | rst => exact absurd rfl hr
  | xunit => exact absurd rfl hx
  | opset | oppush => rw [complete_u, putOperand_u]
  | _ => rfl

/-- R106: the byte is recognised exactly when its index, as RES holds it, is not 0. -/
theorem unitRecognised_iff (b : Byte) :
    unitRecognised b = true ↔ BitVec.ofNat 32 (unitIndex b) ≠ 0 := by
  have hlt : unitIndex b < 2 ^ 32 := (unitIndex_lt b).trans (by decide)
  have hzero : BitVec.ofNat 32 (unitIndex b) = 0 ↔ unitIndex b = 0 := by
    rw [← BitVec.toNat_inj, BitVec.toNat_ofNat, Nat.mod_eq_of_lt hlt, BitVec.ofNat_eq_ofNat,
      BitVec.toNat_zero]
  rw [unitRecognised, decide_eq_true_iff, ne_eq, ne_eq, hzero]

theorem Completed.u_of_xunit (h : Completed c s i t)
    (hx : i.mnemonic = .XUNIT) : t.u = true ↔ t.res ≠ 0 := by
  cases h with
  | xunit _ b => exact unitRecognised_iff b
  | _ => cases hx

theorem e_iff (s : State) : s.e = true ↔ s.err ≠ 0 := decide_eq_true_iff

/-! ### No command reads a flag -/

/-- A completion with other flags before it differs in the flags only. -/
theorem Completed.withFlags (v u : Bool) (h : Completed c s i t) :
    ∃ t', Completed c { s with v := v, u := u } i t' ∧ t' = { t with v := t'.v, u := t'.u } := by
  cases h with
  | nop => exact ⟨_, .nop, rfl⟩
  | rst => exact ⟨_, .rst, rfl⟩
  | bclr => exact ⟨_, .bclr, rfl⟩
  | bpush b h => exact ⟨_, .bpush b h, rfl⟩
  | bpushr h => exact ⟨_, .bpushr h, rfl⟩
  | csum ifb len h => exact ⟨_, .csum ifb len h, rfl⟩
  | verifyMatch ifb t h m => exact ⟨_, .verifyMatch ifb t h m, rfl⟩
  | verifyMismatch ifb h m => exact ⟨_, .verifyMismatch ifb h m, rfl⟩
  | opset sel tag => exact ⟨_, .opset sel tag, by cases sel <;> rfl⟩
  | oppush sel b h => cases sel <;> exact ⟨_, .oppush _ b h, rfl⟩
  | build dp a b k ha hb hk => exact ⟨_, .build dp a b k ha hb hk, rfl⟩
  | xu8 off b h => exact ⟨_, .xu8 off b h, rfl⟩
  | xu16 off hi lo h h' => exact ⟨_, .xu16 off hi lo h h', rfl⟩
  | xcenti off hi lo h h' => exact ⟨_, .xcenti off hi lo h h', rfl⟩
  | xunit off b h => exact ⟨_, .xunit off b h, rfl⟩
  | xdp off b h => exact ⟨_, .xdp off b h, rfl⟩
  | xds off b h => exact ⟨_, .xds off b h, rfl⟩
  | xbit off k b h => exact ⟨_, .xbit off k b h, rfl⟩

/-- An error entry with other flags before it differs in the flags only. -/
theorem Raised.withFlags (v u : Bool) (h : Raised c s i t) :
    ∃ t', Raised c { s with v := v, u := u } i t' ∧ t' = { t with v := t'.v, u := t'.u } := by
  cases h with
  | bpush b h => exact ⟨_, .bpush b h, rfl⟩
  | bpushr h => exact ⟨_, .bpushr h, rfl⟩
  | csum ifb len h => exact ⟨_, .csum ifb len h, rfl⟩
  | verifyShort ifb t h => exact ⟨_, .verifyShort ifb t h, rfl⟩
  | verifyMismatch ifb h m => exact ⟨_, .verifyMismatch ifb h m, rfl⟩
  | oppush sel b h => cases sel <;> exact ⟨_, .oppush _ b h, rfl⟩
  | build dp h => exact ⟨_, .build dp h, rfl⟩
  | xu8 off h => exact ⟨_, .xu8 off h, rfl⟩
  | xu16 off h => exact ⟨_, .xu16 off h, rfl⟩
  | xcenti off h => exact ⟨_, .xcenti off h, rfl⟩
  | xunit off h => exact ⟨_, .xunit off h, rfl⟩
  | xdp off h => exact ⟨_, .xdp off h, rfl⟩
  | xds off h => exact ⟨_, .xds off h, rfl⟩
  | xbit off k h => exact ⟨_, .xbit off k h, rfl⟩

theorem exec_withFlags (v u : Bool) (h : exec i s = .next t) :
    ∃ t', exec i { s with v := v, u := u } = .next t' ∧ t' = { t with v := t'.v, u := t'.u } := by
  obtain hi | hi := exec_next h
  · obtain ⟨t', ht, hsame⟩ := hi.withFlags v u
    exact ⟨t', (exec_eq_execAt i _).trans ht.execAt_eq, hsame⟩
  · obtain ⟨t', ht, hsame⟩ := hi.withFlags v u
    exact ⟨t', (exec_eq_execAt i _).trans ht.execAt_eq, hsame⟩

/-- Settles O50, by whether the command completes or raises. -/
theorem flagRules : Obligations.FlagRules := by
  intro i s t hexec
  have hrst : i = .rst → t.v = false ∧ t.u = false := by
    rintro rfl
    cases hexec
    exact ⟨resetBlock_v s, resetBlock_u s⟩
  have hflags := fun v u => exec_withFlags v u hexec
  obtain hi | hi := exec_next hexec
  · have herr := hi.err_eq
    have hchanged (hbuf : t.buf ≠ s.buf) : t.v = false :=
      hi.v_of_changes fun hb => hbuf (hi.buf_of_keeps hb)
    exact ⟨hrst, fun hb _ => hi.v_of_changes hb, fun _ hne => absurd herr hne, hi.v_of_keeps,
      fun hv => (hi.v_of_verify hv).trans (and_iff_right herr).symm, hchanged, hi.u_eq,
      fun hx _ => hi.u_of_xunit hx, fun _ hne => absurd herr hne, e_iff t, hflags⟩
  · have herr := hi.err_ne_zero
    have hverify (hv : i.mnemonic = .VERIFY) : t.v = true ↔ t.err = 0 ∧ t.res = 1 :=
      iff_of_false (by rw [hi.v_of_verify hv]; nofun) fun hz => herr hz.1
    exact ⟨hrst, fun _ hz => absurd hz herr, fun hb _ => hi.v_eq (mnemonic_ne_verify hb),
      fun _ hv => hi.v_eq hv, hverify, fun hbuf => absurd hi.buf_eq hbuf, fun _ _ => hi.u_eq,
      fun _ hz => absurd hz herr, fun _ _ => hi.u_eq, e_iff t, hflags⟩

end Sys2Proof.Machine
end

section
/-! PROOFS. What the commands do to the bytes of BUF (spec/20_memory.md): windows (R34), the commands
that keep BUF or append to it (R33, R35), and the frame of BUILD (R38, R39). -/

namespace Sys2Proof.Machine

variable {c : Config} {i : Instr} {s t : State}

/-! ### The window of an extractor -/

/-- A byte that can be read stands below LEN. -/
theorem readByte_lt_len {a : Nat} {b : Byte} (h : s.readByte a = some b) : a < s.len :=
  (readByte_eq_some_iff.mp h).1

/-- R34: an extractor that completes had its whole window below LEN. -/
theorem Completed.window_le {off w : Nat} (h : Completed c s i t)
    (hw : windowOf i = some (off, w)) : off + w ≤ s.len := by
  cases h with
  | xu16 _ _ _ _ hlo | xcenti _ _ _ _ hlo => cases hw; exact readByte_lt_len hlo
  | xu8 _ _ hb | xunit _ _ hb | xdp _ _ hb | xds _ _ hb | xbit _ _ _ hb =>
    cases hw; exact readByte_lt_len hb
  | _ => cases hw

/-- R34: an extractor raises by its bound check alone, and always the same error. -/
theorem Raised.window_lt {off w : Nat} (h : Raised c s i t) (hw : windowOf i = some (off, w)) :
    s.len < off + w ∧ t = raise .windowOutOfRange s := by
  cases h with
  | xu8 _ hl | xu16 _ hl | xcenti _ hl | xunit _ hl | xdp _ hl | xds _ hl | xbit _ _ hl =>
    cases hw; exact ⟨hl, rfl⟩
  | _ => cases hw

theorem exec_answers (i : Instr) (s : State) : ∃ t, exec i s = .next t := by
  obtain ⟨t, ht, -⟩ := execAt_cases Config.hardware i s
  exact ⟨t, (exec_eq_execAt i s).trans ht⟩

/-- Settles O45: completing puts the window below LEN, and raising puts it past LEN. -/
theorem extractorsCheckTheirWindow : Obligations.ExtractorsCheckTheirWindow := by
  intro i s off w hw
  obtain ⟨t, hexec⟩ := exec_answers i s
  obtain hi | hi := exec_next hexec
  · have hin := hi.window_le hw
    exact ⟨fun hout => absurd hin (Nat.not_le.mpr hout), fun _ => ⟨t, hexec, hi.err_eq⟩⟩
  · obtain ⟨hout, rfl⟩ := hi.window_lt hw
    exact ⟨fun _ => hexec, fun hin => absurd hin (Nat.not_le.mpr hout)⟩

/-! ### Commands that keep BUF and commands that append to it -/

theorem sameBytes_of_buf_eq (h : t.buf = s.buf) : SameBytes s t := by
  intro a
  rw [State.readByte, State.readByte, h]

/-- Settles O51: no row of R33 that stores nothing changes BUF, whether it completes or raises. -/
theorem nonStoringCommandsKeepEveryByte : Obligations.NonStoringCommandsKeepEveryByte := by
  intro i s t hb hexec
  obtain hi | hi := exec_next hexec
  · exact sameBytes_of_buf_eq (hi.buf_of_keeps hb)
  · exact sameBytes_of_buf_eq hi.buf_eq

/-- R33: BPUSH and BPUSHR complete by one append. -/
theorem Completed.append_of_appends (h : Completed c s i t) (hb : bufEffect i = .appends) :
    ∃ b, t = complete (replaceBuf (s.buf ++ [b]) s) := by
  cases h with
  | bpush b | bpushr => exact ⟨_, rfl⟩
  | _ => cases hb

/-- Settles O52: an append changes the byte at the append address alone, an error none. -/
theorem appendingCommandsKeepEveryOtherByte :
    Obligations.AppendingCommandsKeepEveryOtherByte := by
  intro i s t hb hexec
  obtain hi | hi := exec_next hexec
  · have herr := hi.err_eq
    obtain ⟨b, rfl⟩ := hi.append_of_appends hb
    refine ⟨fun a ha => ?_, fun _ => ?_, fun hne => absurd herr hne⟩
    · rw [complete_readByte, readByte_append, if_neg ha]
    · rw [complete_len, replaceBuf_len, List.length_append, List.length_singleton, State.len]
  · have hsame := sameBytes_of_buf_eq hi.buf_eq
    exact ⟨fun a _ => hsame a, fun hz => absurd hz hi.err_ne_zero, fun _ => hsame⟩

/-! ### The frame of BUILD -/

/-- A BUILD that has both operands' bytes leaves the frame in BUF, its body and then the checksum. -/
theorem exec_build_buf {dp : Bool} {command payload : List Byte}
    (h : exec (.build dp) s = .next t) (hc : encOperand s.opc = some command)
    (hp : payloadBytes dp s = some payload) :
    t.buf = frameBody command payload ++ [checksumOf ((frameBody command payload).drop 1)] := by
  have hi : Completed Config.hardware s (.build dp) _ := .build dp command payload _ hc hp rfl
  rw [exec_eq_execAt, hi.execAt_eq] at h
  cases h
  rfl

/-- The bytes of a part of BUF, counted from where the part begins. -/
theorem readByte_of_buf_part {before part after : List Byte}
    (h : t.buf = before ++ part ++ after) {a : Nat} (ha : before.length = a) {j : Nat}
    (hj : j < part.length) : t.readByte (a + j) = part[j]? := by
  rw [State.readByte, h, List.append_assoc, ← ha, List.getElem?_append_right (Nat.le_add_right _ _),
    Nat.add_sub_cancel_left, List.getElem?_append_left hj]

/-- Settles O33: each index of R38 falls in one part of the frame, and R39's checksum is over the
body. -/
theorem builtFrameLayout : Obligations.BuiltFrameLayout := by
  intro s t dp command payload hexec hc hp
  have hbuf := exec_build_buf hexec hc hp
  have hcks := cks_frameBody command payload
  have hbody := frameBody_length command payload
  generalize checksumOf ((frameBody command payload).drop 1) = k at hbuf hcks
  have hlen : t.len = command.length + payload.length + 7 := by
    rw [State.len, hbuf, List.length_append, hbody, List.length_singleton]
  have htake : t.buf.take (t.len - 1) = frameBody command payload := by
    rw [hbuf, List.take_left' (by omega)]
  have hcommand : t.buf = [0xFF, 0x01] ++ command ++ (payload ++ [0, 0, 0, 0] ++ [k]) := by
    rw [hbuf, frameBody]; simp only [List.append_assoc]
  have hpayload : t.buf = [0xFF, 0x01] ++ command ++ payload ++ ([0, 0, 0, 0] ++ [k]) := by
    rw [hbuf, frameBody, List.append_assoc _ _ [k]]
  have htrailer : t.buf = [0xFF, 0x01] ++ command ++ payload ++ List.replicate 4 0 ++ [k] := hbuf
  have hlast : t.buf = frameBody command payload ++ [k] ++ [] := by rw [hbuf, List.append_nil]
  refine ⟨hlen, ?_, ?_, ?_, ?_, ?_, k, ?_, ?_⟩
  · rw [State.readByte, hcommand]; rfl
  · rw [State.readByte, hcommand]; rfl
  · exact fun j hj => readByte_of_buf_part hcommand rfl hj
  · exact fun j hj => readByte_of_buf_part hpayload (by simp; omega) hj
  · intro j hj
    rw [readByte_of_buf_part htrailer (by simp; omega) (by simpa using hj),
      List.getElem?_replicate_of_lt hj]
  · exact readByte_of_buf_part hlast (hbody.trans (by omega)) (j := 0) Nat.one_pos
  · rw [htake, hcks]

end Sys2Proof.Machine
end

section
/-! PROOFS. Command words (spec/30_encoding.md R50 to R60): each row of the opcode map read as a
format, the decoder and the map's columns as two readings of the rows, and the round trips. -/

namespace Sys2Proof

/-! ### Fields and the words made of them -/

/-- A field is the two fields it splits into above bit `mid`. -/
theorem bits_split (w : Word) (hi mid lo : Nat) (h : lo ≤ mid ∧ mid < hi) :
    bits w hi lo = bits w mid lo + 2 ^ (mid + 1 - lo) * bits w hi (mid + 1) := by
  have hwidth : 2 ^ (hi + 1 - lo) = 2 ^ (mid + 1 - lo) * 2 ^ (hi + 1 - (mid + 1)) := by
    rw [← pow_add]; congr 1; omega
  have hstart : 2 ^ lo * 2 ^ (mid + 1 - lo) = 2 ^ (mid + 1) := by rw [← pow_add]; congr 1; omega
  rw [bits, hwidth, Nat.mod_mul, Nat.div_div_eq_div_mul, hstart]; rfl

theorem bits_split_eq_zero_iff (w : Word) (hi mid lo : Nat) (h : lo ≤ mid ∧ mid < hi) :
    bits w hi lo = 0 ↔ bits w hi (mid + 1) = 0 ∧ bits w mid lo = 0 := by
  rw [bits_split w hi mid lo h, Nat.add_eq_zero_iff, and_comm, Nat.mul_eq_zero,
    or_iff_right (Nat.two_pow_pos _).ne']

/-- Two words are equal exactly when their opcodes and their operand bits are. -/
theorem word_eq_iff {v w : Word} :
    v = w ↔ bits v 31 24 = bits w 31 24 ∧ bits v 23 0 = bits w 23 0 := by
  refine ⟨fun h => h ▸ ⟨rfl, rfl⟩, fun ⟨hop, hx⟩ => ?_⟩
  rw [← word_eq_mkWord v, hop, hx, word_eq_mkWord]

theorem flagAt_eq {w : Word} {i : Nat} {b : Bool} (h : bits w i i = b.toNat) : flagAt w i = b := by
  cases b <;> simp [flagAt, h]

theorem ofNat_eq_of_toNat {n : Nat} {b : Byte} (h : n = b.toNat) : BitVec.ofNat 8 n = b := by
  rw [h, BitVec.ofNat_toNat, BitVec.setWidth_eq]

/-! ### The rows of the opcode map as formats -/

/-- The reserved bits of the row's format (R51), 0 exactly when all of them are. -/
def Mnemonic.reserved (m : Mnemonic) (w : Word) : Nat :=
  match m with
  | .NOP | .RST | .BCLR | .BPUSHR => bits w 23 0
  | .BPUSH | .XU8 | .XU16 | .XCENTI | .XUNIT | .XDP | .XDS => bits w 23 8
  | .CSUM => bits w 23 17
  | .VERIFY => bits w 23 18 + bits w 15 0
  | .OPSET => bits w 23 9 + bits w 7 2
  | .OPPUSH => bits w 23 9
  | .BUILD => bits w 23 1
  | .XBIT => bits w 23 11

/-- The command of the row with the operands in the fields of its format (R51). -/
def Mnemonic.command (m : Mnemonic) (w : Word) : Instr :=
  match m with
  | .NOP => .nop
  | .RST => .rst
  | .BCLR => .bclr
  | .BPUSH => .bpush (BitVec.ofNat 8 (bits w 7 0))
  | .BPUSHR => .bpushr
  | .CSUM => .csum (flagAt w 16) (sext16 (bits w 15 0))
  | .VERIFY => .verify (flagAt w 16) (flagAt w 17)
  | .OPSET => .opset (OperandSel.ofCode (bits w 8 8)) (Tag.ofCode (bits w 1 0))
  | .OPPUSH => .oppush (OperandSel.ofCode (bits w 8 8)) (BitVec.ofNat 8 (bits w 7 0))
  | .BUILD => .build (flagAt w 0)
  | .XU8 => .xu8 (bits w 7 0)
  | .XU16 => .xu16 (bits w 7 0)
  | .XCENTI => .xcenti (bits w 7 0)
  | .XUNIT => .xunit (bits w 7 0)
  | .XDP => .xdp (bits w 7 0)
  | .XDS => .xds (bits w 7 0)
  | .XBIT => .xbit (bits w 7 0) (bits w 10 8)

@[simp] theorem mnemonic_command (m : Mnemonic) (w : Word) : (m.command w).mnemonic = m := by
  cases m <;> rfl

/-- Every field is in the range R53 gives its operand. -/
theorem wf_command (m : Mnemonic) (w : Word) : (m.command w).wf = true := by
  cases m with
  | CSUM => exact decide_eq_true (sext16_range (bits_lt w 15 0))
  | XU8 | XU16 | XCENTI | XUNIT | XDP | XDS => exact decide_eq_true (bits_lt w 7 0)
  | XBIT =>
    exact Bool.and_eq_true_iff.mpr
      ⟨decide_eq_true (bits_lt w 7 0), decide_eq_true (bits_lt w 10 8)⟩
  | _ => rfl

/-! ### The decoder, row by row -/

/-- A word with the opcode of a row is read in the row's format, its reserved bits checked. -/
theorem decode_of_opcode {w : Word} {m : Mnemonic} (h : bits w 31 24 = bits m.pattern 31 24) :
    decode w = checkReserved (bits m.pattern 31 24) (m.reserved w) (m.command w) := by
  unfold decode
  rw [h]
  cases m <;> rfl

/-- Everything the decoder can accept: a word with the opcode of a row and its reserved bits 0, as
the row's command. -/
theorem decode_eq_ok_iff {w : Word} {i : Instr} :
    decode w = .ok i ↔ bits w 31 24 = bits i.mnemonic.pattern 31 24 ∧ i.mnemonic.reserved w = 0 ∧
      i.mnemonic.command w = i := by
  refine ⟨fun h => ?_, fun ⟨hop, hr, hi⟩ => ?_⟩
  · unfold decode at h
    split at h
    case h_18 => cases h
    all_goals
      rename_i hop
      obtain ⟨hr, rfl⟩ := checkReserved_ok_iff.mp h
      exact ⟨hop.trans (by simp only [Instr.mnemonic]; rfl), hr, rfl⟩
  · rw [decode_of_opcode hop, checkReserved_ok_iff]
    exact ⟨hr, hi⟩

/-! ### The columns of the opcode map, row by row -/

/-- A mask with one field of 0 bits, at the bottom of the operand bits. -/
theorem masked_low_field {mask : Word} (n : Nat) (hn : n < 23) (w : Word)
    (hmask : bits mask 23 (n + 1) = 2 ^ (23 + 1 - (n + 1)) - 1 ∧ bits mask n 0 = 0) :
    bits (w &&& mask) 23 0 = 0 ↔ bits w 23 (n + 1) = 0 := by
  obtain ⟨hones, hzeros⟩ := hmask
  rw [bits_split_eq_zero_iff _ 23 n 0 ⟨Nat.zero_le n, hn⟩, bits_and_ones w mask hones,
    bits_and_zeros w mask hzeros, and_iff_left rfl]

/-- The mask of a row leaves of the operand bits exactly the reserved ones. -/
theorem masked_operands_iff (m : Mnemonic) (w : Word) :
    bits (w &&& m.mask) 23 0 = 0 ↔ m.reserved w = 0 := by
  cases m with
  | NOP | RST | BCLR | BPUSHR => rw [bits_and_ones w _ (by decide)]; rfl
  | BPUSH | XU8 | XU16 | XCENTI | XUNIT | XDP | XDS =>
    exact masked_low_field 7 (by decide) w (by decide)
  | CSUM => exact masked_low_field 16 (by decide) w (by decide)
  | OPPUSH => exact masked_low_field 8 (by decide) w (by decide)
  | BUILD => exact masked_low_field 0 (by decide) w (by decide)
  | XBIT => exact masked_low_field 10 (by decide) w (by decide)
  | VERIFY =>
    rw [bits_split_eq_zero_iff _ 23 17 0 (by decide), bits_split_eq_zero_iff _ 17 15 0 (by decide),
      bits_and_ones w _ (by decide), bits_and_zeros w _ (by decide),
      bits_and_ones w _ (by decide), and_iff_right rfl]
    exact Nat.add_eq_zero_iff.symm
  | OPSET =>
    rw [bits_split_eq_zero_iff _ 23 8 0 (by decide), bits_split_eq_zero_iff _ 8 7 0 (by decide),
      bits_split_eq_zero_iff _ 7 1 0 (by decide), bits_and_ones w _ (by decide),
      bits_and_zeros w _ (by decide), bits_and_ones w _ (by decide),
      bits_and_zeros w _ (by decide), and_iff_right rfl, and_iff_left rfl]
    exact Nat.add_eq_zero_iff.symm

/-- R52: a word matches a row exactly when it has the row's opcode and its reserved bits are 0. -/
theorem matches_iff {m : Mnemonic} {w : Word} :
    m.Matches w ↔ bits w 31 24 = bits m.pattern 31 24 ∧ m.reserved w = 0 := by
  have hopcode : bits m.mask 31 24 = 2 ^ (31 + 1 - 24) - 1 := by cases m <;> decide
  have hpattern : bits m.pattern 23 0 = 0 := by cases m <;> decide
  rw [Mnemonic.Matches, word_eq_iff, bits_and_ones w m.mask hopcode, hpattern, masked_operands_iff]

/-- Settles O3, by the format of the row: both the decoder and the columns ask for its opcode and
for its reserved bits to be 0. -/
theorem decodeAgreesWithOpcodeMap : Obligations.DecodeAgreesWithOpcodeMap := by
  intro w m
  rw [matches_iff]
  constructor
  · rintro ⟨i, hd, rfl⟩
    obtain ⟨hop, hr, -⟩ := decode_eq_ok_iff.mp hd
    exact ⟨hop, hr⟩
  · rintro ⟨hop, hr⟩
    exact ⟨m.command w, by rw [decode_of_opcode hop, hr]; rfl, mnemonic_command m w⟩

theorem matches_of_decode {w : Word} {i : Instr} (h : decode w = .ok i) : i.mnemonic.Matches w :=
  (decodeAgreesWithOpcodeMap w i.mnemonic).mp ⟨i, h, rfl⟩

theorem decode_error_of_not_matches {w : Word} (h : ∀ m, ¬ Mnemonic.Matches m w) :
    ∃ e, decode w = .error e := by
  cases hd : decode w with
  | error e => exact ⟨e, rfl⟩
  | ok i => exact absurd (matches_of_decode hd) (h i.mnemonic)

/-- Settles O4, by whether the word decodes; a word has one decoding, so one row. -/
theorem everyWordIsOneCommandOrIllegal : Obligations.EveryWordIsOneCommandOrIllegal := by
  intro w
  by_cases h : ∃ m, Mnemonic.Matches m w
  · obtain ⟨m, hm⟩ := h
    obtain ⟨i, hd, hi⟩ := (decodeAgreesWithOpcodeMap w m).mpr hm
    refine .inl ⟨m, i, hm, fun m' hm' => ?_, hd, hi⟩
    obtain ⟨i', hd', rfl⟩ := (decodeAgreesWithOpcodeMap w m').mpr hm'
    cases hd.symm.trans hd'
    exact hi
  · rw [not_exists] at h
    exact .inr ⟨h, decode_error_of_not_matches h⟩

/-- Settles O5: such a word does not decode, and presenting it is the error entry of
`IllegalCommand`. -/
theorem illegalWordRaisesIllegalCommand : Obligations.IllegalWordRaisesIllegalCommand := by
  intro w s h
  obtain ⟨e, hd⟩ := decode_error_of_not_matches h
  exact Machine.presentWord_error hd s

/-! ### The encoder, command by command -/

/-- Bits 23 to 0 of the word of a command (R51). -/
def Instr.operands : Instr → Nat
  | .nop | .rst | .bclr | .bpushr => 0
  | .bpush imm8 => imm8.toNat
  | .csum ifb len => ifb.toNat * 2 ^ 16 + (len % 65536).toNat
  | .verify ifb t => t.toNat * 2 ^ 17 + ifb.toNat * 2 ^ 16
  | .opset sel tag => sel.code * 2 ^ 8 + tag.code
  | .oppush sel imm8 => sel.code * 2 ^ 8 + imm8.toNat
  | .build dp => dp.toNat
  | .xu8 off | .xu16 off | .xcenti off | .xunit off | .xdp off | .xds off => off
  | .xbit off k => k * 2 ^ 8 + off

theorem encode_eq_mkWord (i : Instr) :
    encode i = mkWord (bits i.mnemonic.pattern 31 24) i.operands := by
  cases i <;> simp only [Instr.mnemonic] <;> rfl

/-- The operand bits of a row's command are those of the word, its reserved bits being 0. -/
theorem operands_command {m : Mnemonic} {w : Word} (h : m.reserved w = 0) :
    (m.command w).operands = bits w 23 0 := by
  cases m with
  | NOP | RST | BCLR | BPUSHR => exact h.symm
  | BPUSH =>
    have hr : bits w 23 8 = 0 := h
    rw [bits_split w 23 7 0 (by decide), hr]
    exact Nat.mod_eq_of_lt (bits_lt w 7 0)
  | XU8 | XU16 | XCENTI | XUNIT | XDP | XDS =>
    have hr : bits w 23 8 = 0 := h
    rw [bits_split w 23 7 0 (by decide), hr]
    rfl
  | CSUM =>
    have hr : bits w 23 17 = 0 := h
    rw [bits_split w 23 16 0 (by decide), bits_split w 16 15 0 (by decide), hr]
    simp only [Mnemonic.command, Instr.operands, flagAt_toNat, emod_sext16 (bits_lt w 15 0),
      Nat.reduceAdd]
    omega
  | VERIFY =>
    obtain ⟨hhigh, hlow⟩ := Nat.add_eq_zero_iff.mp h
    rw [bits_split w 23 17 0 (by decide), bits_split w 17 16 0 (by decide),
      bits_split w 16 15 0 (by decide), hhigh, hlow]
    simp only [Mnemonic.command, Instr.operands, flagAt_toNat, Nat.reduceAdd]
    omega
  | OPSET =>
    obtain ⟨hhigh, hlow⟩ := Nat.add_eq_zero_iff.mp h
    rw [bits_split w 23 8 0 (by decide), bits_split w 8 7 0 (by decide),
      bits_split w 7 1 0 (by decide), hhigh, hlow]
    simp only [Mnemonic.command, Instr.operands, OperandSel.code_ofCode (bits_lt w 8 8),
      Tag.code_ofCode (bits_lt w 1 0), Nat.reduceAdd]
    omega
  | OPPUSH =>
    have hr : bits w 23 9 = 0 := h
    rw [bits_split w 23 8 0 (by decide), bits_split w 8 7 0 (by decide), hr]
    simp only [Mnemonic.command, Instr.operands, OperandSel.code_ofCode (bits_lt w 8 8),
      BitVec.toNat_ofNat, Nat.mod_eq_of_lt (bits_lt w 7 0), Nat.reduceAdd]
    omega
  | BUILD =>
    have hr : bits w 23 1 = 0 := h
    rw [bits_split w 23 0 0 (by decide), hr]
    exact flagAt_toNat w 0
  | XBIT =>
    have hr : bits w 23 11 = 0 := h
    rw [bits_split w 23 10 0 (by decide), bits_split w 10 7 0 (by decide), hr]
    simp only [Mnemonic.command, Instr.operands, Nat.reduceAdd]
    omega

/-- Settles O2: the row's fields and its reserved zeros are the whole word. -/
theorem encodeOfDecodeIsTheWord : Obligations.EncodeOfDecodeIsTheWord := by
  intro w i h
  obtain ⟨hop, hr, hi⟩ := decode_eq_ok_iff.mp h
  have hx : i.operands = bits w 23 0 := hi ▸ operands_command hr
  exact ⟨hi ▸ wf_command i.mnemonic w, by rw [encode_eq_mkWord, ← hop, hx, word_eq_mkWord]⟩

/-- The operands of a well-formed command fit below the opcode. -/
theorem operands_lt {i : Instr} (h : i.wf = true) : i.operands < 2 ^ 24 := by
  cases i
  all_goals simp only [Instr.operands]
  case bpush imm8 => have := imm8.isLt; omega
  case csum ifb len => have := ifb.toNat_le; omega
  case verify ifb t => have := ifb.toNat_le; have := t.toNat_le; omega
  case opset sel tag => have := sel.code_lt; have := tag.code_lt; omega
  case oppush sel imm8 => have := sel.code_lt; have := imm8.isLt; omega
  case build dp => have := dp.toNat_le; omega
  case xu8 off | xu16 off | xcenti off | xunit off | xdp off | xds off =>
    have : off < 256 := of_decide_eq_true h
    omega
  case xbit off k =>
    obtain ⟨hoff, hk⟩ := Bool.and_eq_true_iff.mp h
    have : off < 256 := of_decide_eq_true hoff
    have : k < 8 := of_decide_eq_true hk
    omega
  all_goals decide

/-- A field below the opcode of a command's word is that field of the operands. -/
theorem bits_encode {i : Instr} (h : i.wf = true) (hi lo : Nat) (hf : hi < 24 ∧ lo ≤ hi) :
    bits (encode i) hi lo = i.operands / 2 ^ lo % 2 ^ (hi + 1 - lo) := by
  rw [encode_eq_mkWord, bits_mkWord (bits_lt _ 31 24) (operands_lt h) hf.1 hf.2]

theorem opcode_encode {i : Instr} (h : i.wf = true) :
    bits (encode i) 31 24 = bits i.mnemonic.pattern 31 24 := by
  rw [encode_eq_mkWord, opcode_mkWord (bits_lt _ 31 24) (operands_lt h)]

/-- The word of a well-formed command, read in its row's format, has its reserved bits 0 and gives
the command back. -/
theorem row_encode {i : Instr} (h : i.wf = true) :
    i.mnemonic.reserved (encode i) = 0 ∧ i.mnemonic.command (encode i) = i := by
  have field := bits_encode h
  cases i with
  | nop | rst | bclr | bpushr => exact ⟨field 23 0 (by decide), rfl⟩
  | bpush imm8 =>
    have := imm8.isLt
    simp only [Instr.operands] at field
    have hr := (field 23 8 (by decide)).trans (show _ = 0 by omega)
    have hb := (field 7 0 (by decide)).trans (show _ = imm8.toNat by omega)
    exact ⟨hr, congrArg Instr.bpush (ofNat_eq_of_toNat hb)⟩
  | csum ifb len =>
    have := ifb.toNat_le
    obtain ⟨hmin, hmax⟩ := of_decide_eq_true h
    simp only [Instr.operands] at field
    have hr := (field 23 17 (by decide)).trans (show _ = 0 by omega)
    have hifb := (field 16 16 (by decide)).trans (show _ = ifb.toNat by omega)
    have hlen := (field 15 0 (by decide)).trans (show _ = (len % 65536).toNat by omega)
    exact ⟨hr, congrArg₂ Instr.csum (flagAt_eq hifb) (hlen ▸ sext16_emod hmin hmax)⟩
  | verify ifb t =>
    have := ifb.toNat_le
    have := t.toNat_le
    simp only [Instr.operands] at field
    have hhigh := (field 23 18 (by decide)).trans (show _ = 0 by omega)
    have hlow := (field 15 0 (by decide)).trans (show _ = 0 by omega)
    have hifb := (field 16 16 (by decide)).trans (show _ = ifb.toNat by omega)
    have ht := (field 17 17 (by decide)).trans (show _ = t.toNat by omega)
    exact ⟨Nat.add_eq_zero_iff.mpr ⟨hhigh, hlow⟩,
      congrArg₂ Instr.verify (flagAt_eq hifb) (flagAt_eq ht)⟩
  | opset sel tag =>
    have := sel.code_lt
    have := tag.code_lt
    simp only [Instr.operands] at field
    have hhigh := (field 23 9 (by decide)).trans (show _ = 0 by omega)
    have hlow := (field 7 2 (by decide)).trans (show _ = 0 by omega)
    have hsel := (field 8 8 (by decide)).trans (show _ = sel.code by omega)
    have htag := (field 1 0 (by decide)).trans (show _ = tag.code by omega)
    exact ⟨Nat.add_eq_zero_iff.mpr ⟨hhigh, hlow⟩,
      congrArg₂ Instr.opset (hsel ▸ sel.ofCode_code) (htag ▸ tag.ofCode_code)⟩
  | oppush sel imm8 =>
    have := sel.code_lt
    have := imm8.isLt
    simp only [Instr.operands] at field
    have hr := (field 23 9 (by decide)).trans (show _ = 0 by omega)
    have hsel := (field 8 8 (by decide)).trans (show _ = sel.code by omega)
    have hb := (field 7 0 (by decide)).trans (show _ = imm8.toNat by omega)
    exact ⟨hr, congrArg₂ Instr.oppush (hsel ▸ sel.ofCode_code) (ofNat_eq_of_toNat hb)⟩
  | build dp =>
    have := dp.toNat_le
    simp only [Instr.operands] at field
    have hr := (field 23 1 (by decide)).trans (show _ = 0 by omega)
    have hdp := (field 0 0 (by decide)).trans (show _ = dp.toNat by omega)
    exact ⟨hr, congrArg Instr.build (flagAt_eq hdp)⟩
  | xu8 off | xu16 off | xcenti off | xunit off | xdp off | xds off =>
    have : off < 256 := of_decide_eq_true h
    simp only [Instr.operands] at field
    have hr := (field 23 8 (by decide)).trans (show _ = 0 by omega)
    have hoff := (field 7 0 (by decide)).trans (show _ = off by omega)
    exact ⟨hr, congrArg _ hoff⟩
  | xbit off k =>
    obtain ⟨hoff, hk⟩ := Bool.and_eq_true_iff.mp h
    have : off < 256 := of_decide_eq_true hoff
    have : k < 8 := of_decide_eq_true hk
    simp only [Instr.operands] at field
    have hr := (field 23 11 (by decide)).trans (show _ = 0 by omega)
    have hoff := (field 7 0 (by decide)).trans (show _ = off by omega)
    have hk := (field 10 8 (by decide)).trans (show _ = k by omega)
    exact ⟨hr, congrArg₂ Instr.xbit hoff hk⟩

/-- Settles O1: the command's word has the opcode of its row, reserved bits 0, and the command's
operands in its fields. -/
theorem decodeOfEncodeIsTheCommand : Obligations.DecodeOfEncodeIsTheCommand := by
  intro i h
  exact decode_eq_ok_iff.mpr ⟨opcode_encode h, row_encode h⟩

/-- Settles O6: a word with the opcode of a row and not of the row has a reserved bit set; the word
of each OPSET decodes. -/
theorem reservedBitsAreChecked : Obligations.ReservedBitsAreChecked := by
  refine ⟨fun w m hop hm => ?_, fun sel tag => ?_, by decide, by decide, by decide⟩
  · have hr : m.reserved w ≠ 0 := fun hz => hm (matches_iff.mpr ⟨hop, hz⟩)
    rw [decode_of_opcode hop, checkReserved_error_iff]
    exact ⟨hr, congrArg _ hop⟩
  · exact ⟨encode (.opset sel tag), decodeOfEncodeIsTheCommand _ rfl⟩

/-- Settles O7: the decoder computes each of the ten. -/
theorem specWordsDecodeToTheirCommands : Obligations.SpecWordsDecodeToTheirCommands := by
  unfold Obligations.SpecWordsDecodeToTheirCommands
  decide

end Sys2Proof
end

section
/-! PROOFS. Lines of programs (spec/30_encoding.md R62, R63): the expansions that push one byte at a
time, and the example lines. -/

namespace Sys2Proof.Machine

/-! ### Pushing byte after byte -/

/-- A run whose first command answers `t` goes on from `t`. -/
theorem runInstrs_cons_of_next {i : Instr} {s t : State} (is : List Instr)
    (h : exec i s = .next t) : runInstrs (i :: is) s = runInstrs is t := by
  rw [runInstrs, h]

/-- Commands that append one byte each to what `held` shows, while it has fewer than `cap` bytes,
run to all of their bytes appended. -/
theorem runInstrs_map_append {cmd : Byte → Instr} {held : List Byte → State} {cap : Nat}
    (hpush : ∀ old b, old.length < cap → exec (cmd b) (held old) = .next (held (old ++ [b])))
    (bytes old : List Byte) (hfit : old.length + bytes.length ≤ cap) :
    runInstrs (bytes.map cmd) (held old) = .next (held (old ++ bytes)) := by
  induction bytes generalizing old with
  | nil => rw [List.append_nil]; rfl
  | cons b bytes ih =>
    rw [List.length_cons] at hfit
    rw [List.map_cons, runInstrs_cons_of_next _ (hpush old b (by omega)),
      ih (old ++ [b]) (by rw [List.length_append, List.length_singleton]; omega),
      List.append_assoc, List.singleton_append]

/-- R91 on an operand just written. -/
theorem exec_oppush_putOperand (sel : OperandSel) (tag : Tag) (s : State) (old : List Byte)
    (b : Byte) (h : old.length < Config.hardware.opndCap) :
    exec (.oppush sel b) (complete (putOperand sel { tag := tag, bytes := old } s)) =
      .next (complete (putOperand sel { tag := tag, bytes := old ++ [b] } s)) := by
  have hpush : Completed Config.hardware (complete (putOperand sel { tag := tag, bytes := old } s))
      (.oppush sel b) _ := .oppush sel b (by simpa using h)
  simpa [exec_eq_execAt] using hpush.execAt_eq

/-- R73 on a buffer just written. -/
theorem exec_bpush_replaceBuf (s : State) (old : List Byte) (b : Byte)
    (h : old.length < Config.hardware.bufCap) :
    exec (.bpush b) (complete (replaceBuf old s)) =
      .next (complete (replaceBuf (old ++ [b]) s)) := by
  rw [exec_eq_execAt]
  exact (Completed.bpush (s := complete (replaceBuf old s)) b h).execAt_eq

/-! ### The bytes of an integer -/

/-- A big-endian string without a leading zero byte has as many bytes as the bit length of its value
needs. -/
theorem length_of_head_ne_zero {l : List Byte} (h : l.head? ≠ some 0) :
    l.length = (Nat.size (beValue l) + 7) / 8 := by
  cases l with
  | nil => rfl
  | cons b l =>
    have hne : b ≠ 0 := fun hz => h (congrArg some hz)
    have hb : 0 < b.toNat := Nat.pos_of_ne_zero fun hz => hne (BitVec.eq_of_toNat_eq hz)
    have hlow : 2 ^ (8 * l.length) ≤ beValue (b :: l) := by
      rw [pow_mul, beValue_cons]
      exact Nat.le_add_right_of_le (Nat.le_mul_of_pos_left _ hb)
    have hhigh : beValue (b :: l) < 2 ^ (8 * (l.length + 1)) := by
      rw [pow_mul]
      exact beValue_lt (b :: l)
    have := Nat.lt_size.mpr hlow
    have := Nat.size_le.mpr hhigh
    rw [List.length_cons]
    omega

/-- R93: the INT encoding has the fewest bytes its value needs, and at least one. -/
theorem minimalInt_length (l : List Byte) :
    (minimalInt l).length = max 1 ((Nat.size (beValue l) + 7) / 8) := by
  have hlen := length_of_head_ne_zero (stripLeadingZeros_head l)
  rw [beValue_stripLeadingZeros] at hlen
  rw [minimalInt_eq, ← hlen]
  split
  case isTrue hnil => rw [hnil]; rfl
  case isFalse hne => have := List.length_pos_iff.mpr hne; omega

theorem minimalBytes_length_le {n : Nat} (hn : 1 ≤ n) (v : Nat) :
    (minimalBytes n v).length ≤ n := by
  have hle := minimalInt_length_le (beBytes n v)
  rwa [beBytes_length, Nat.max_eq_right hn] at hle

/-! ### The expansions -/

/-- Settles O60: after OPSET or BCLR the expansion is one push per byte, and its bytes fit. -/
theorem pseudoInstructionsLoadTheirOperands :
    Obligations.PseudoInstructionsLoadTheirOperands := by
  refine ⟨fun s sel v hv => ?_, fun s f hf => ?_⟩
  · have hvalue : beValue (beBytes Config.hardware.opndCap v) = v :=
      (beValue_beBytes _ v).trans (Nat.mod_eq_of_lt hv)
    refine ⟨minimalBytes Config.hardware.opndCap v, ?_, ?_, ?_⟩
    · refine runInstrs_map_append (exec_oppush_putOperand sel .int s) _ [] ?_
      rw [List.length_nil, Nat.zero_add]
      exact minimalBytes_length_le (by decide) v
    · rw [minimalBytes, beValue_minimalInt, hvalue]
    · rw [minimalBytes, minimalInt_length, hvalue]
  · exact runInstrs_map_append (exec_bpush_replaceBuf s) f [] (Nat.zero_add _ ▸ hf)

/-! ### The example lines -/

/-- Settles O59: the assembler computes the words. -/
theorem assemblerExamples : Obligations.AssemblerExamples := by
  unfold Obligations.AssemblerExamples
  decide

end Sys2Proof.Machine
end

section
/-! PROOFS. The control and buffer commands (spec/40_control_and_buffer.md R70 to R74), and the word
of a command as its row's `match` column with the operands in it. -/

namespace Sys2Proof

/-! ### The word of a command from its row -/

/-- Bits that all lie below the opcode put into a row's `match` column fill its operand bits. -/
theorem pattern_or (m : Mnemonic) {x : Word} (hx : x.toNat < 2 ^ 24) :
    m.pattern ||| x = mkWord (bits m.pattern 31 24) x.toNat := by
  have hp : m.pattern.toNat = 2 ^ 24 * bits m.pattern 31 24 := by cases m <;> decide
  have hop := bits_lt m.pattern 31 24
  apply BitVec.eq_of_toNat_eq
  rw [BitVec.toNat_or, hp, ← Nat.two_pow_add_eq_or_of_lt hx, mkWord, BitVec.toNat_ofNat,
    Nat.mul_comm, Nat.mod_eq_of_lt (by omega)]

/-- A row's `match` column with the operands of a well-formed command of the row decodes to the
command. -/
theorem decode_pattern_or {i : Instr} (h : i.wf = true) {x : Word} (hx : x.toNat = i.operands) :
    decode (i.mnemonic.pattern ||| x) = .ok i := by
  rw [pattern_or _ (hx ▸ operands_lt h), hx, ← encode_eq_mkWord]
  exact decodeOfEncodeIsTheCommand i h

end Sys2Proof

namespace Sys2Proof.Machine

/-! ### Commands that append one byte -/

section
variable {s : State} {i : Instr} {b : Byte}
  (happend : exec i s = .next (appendByte Config.hardware b s))
include happend

/-- R73, R74 below the capacity: the whole next state, LEN and every byte after the append. -/
theorem exec_append_of_lt (h : s.len < 64) :
    ∃ t, exec i s = .next t ∧ t = { s with buf := s.buf ++ [b], v := false, err := 0 } ∧
      t.len = s.len + 1 ∧ t.readByte (appendAddress s) = some b ∧
      ∀ a, a ≠ appendAddress s → t.readByte a = s.readByte a := by
  have hstate := appendByte_of_lt (c := Config.hardware) b h
  refine ⟨_, happend.trans (congrArg _ hstate), rfl, List.length_append, ?_, fun a ha => ?_⟩
  · rw [complete_readByte, readByte_append, if_pos rfl]
  · rw [complete_readByte, readByte_append, if_neg ha]

/-- R35 at the capacity: the error entry of `BufferFull` and nothing else. -/
theorem exec_append_of_full (h : s.len = 64) :
    exec i s = .next { s with err := 5, faults := s.faults ||| 0x20 } :=
  happend.trans (congrArg _ (appendByte_of_ge (c := Config.hardware) b h.ge))

end

/-- Settles O18: BPUSH is the append of its operand. -/
theorem bpushAppendsItsByte : Obligations.BpushAppendsItsByte := by
  refine ⟨fun imm8 => ?_, fun s imm8 => ?_⟩
  · have hoperand : (imm8.setWidth 32).toNat = (Instr.bpush imm8).operands :=
      BitVec.toNat_setWidth_of_le (by decide)
    exact decode_pattern_or (i := .bpush imm8) rfl hoperand
  · have happend : exec (.bpush imm8) s = .next (appendByte Config.hardware imm8 s) := rfl
    exact ⟨exec_append_of_lt happend, exec_append_of_full happend⟩

/-- Settles O19: BPUSHR is the append of the byte in bits 7 to 0 of RES. -/
theorem bpushrAppendsTheLowByteOfRes : Obligations.BpushrAppendsTheLowByteOfRes := by
  refine ⟨by decide, fun s => ?_⟩
  have happend : exec .bpushr s =
    .next (appendByte Config.hardware (BitVec.ofNat 8 s.res.toNat) s) := rfl
  refine ⟨fun h => ?_, exec_append_of_full happend⟩
  have hlow : (BitVec.ofNat 8 s.res.toNat).toNat = bits s.res 7 0 := by
    rw [BitVec.toNat_ofNat, bits, pow_zero, Nat.div_one]
  obtain ⟨t, hexec, ht⟩ := exec_append_of_lt happend h
  exact ⟨t, _, hexec, hlow, ht⟩

/-! ### NOP, RST and BCLR -/

/-- Settles O15: NOP is the completion of R123 alone. -/
theorem nopWritesOnlyErr : Obligations.NopWritesOnlyErr :=
  ⟨by decide, fun _ => rfl⟩

/-- Settles O16: RST and the pulse of `rst_n` are both the one reset of the block. -/
theorem rstGivesTheResetState : Obligations.RstGivesTheResetState :=
  ⟨by decide, fun _ => ⟨rfl, rfl⟩⟩

/-- Settles O17: BCLR writes the empty buffer, in which no index has a byte. -/
theorem bclrEmptiesTheBuffer : Obligations.BclrEmptiesTheBuffer :=
  ⟨by decide, fun _ => ⟨_, rfl, rfl, rfl, fun _ => readByte_eq_none_iff.mpr (Nat.zero_le _)⟩⟩

end Sys2Proof.Machine
end

section
/-! PROOFS. The checksum engine (spec/41_checksum_engine.md R80 to R89): the sum of a range by index,
the comparison of VERIFY as a sum, and the outcome of CSUM and of VERIFY as a function of BUF. -/

namespace Sys2Proof

/-! ### A word with two operand fields -/

/-- Two operand fields, the second all below bit `k` where the first begins, add up. -/
theorem toNat_fields_or {a b k : Nat} (ha : a * 2 ^ k < 2 ^ 32) (hb : b < 2 ^ k) (hk : k ≤ 32) :
    (BitVec.ofNat 32 (a * 2 ^ k) ||| BitVec.ofNat 32 b).toNat = a * 2 ^ k + b := by
  have hb' : b < 2 ^ 32 := hb.trans_le (Nat.pow_le_pow_right two_pos hk)
  rw [BitVec.toNat_or, BitVec.toNat_ofNat, BitVec.toNat_ofNat, Nat.mod_eq_of_lt ha,
    Nat.mod_eq_of_lt hb', Nat.mul_comm, Nat.two_pow_add_eq_or_of_lt hb]

theorem decode_csum_word (ifb : Bool) {len : Int} (hmin : -32768 ≤ len) (hmax : len ≤ 32767) :
    decode (0x20000000#32 ||| BitVec.ofNat 32 (ifb.toNat * 2 ^ 16) |||
      BitVec.ofNat 32 (len % 65536).toNat) = .ok (.csum ifb len) := by
  have := ifb.toNat_le
  have hoperands := toNat_fields_or (a := ifb.toNat) (b := (len % 65536).toNat) (k := 16)
    (by omega) (by omega) (by omega)
  rw [BitVec.or_assoc]
  exact decode_pattern_or (i := .csum ifb len) (decide_eq_true ⟨hmin, hmax⟩) hoperands

theorem decode_verify_word (ifb t : Bool) :
    decode (0x21000000#32 ||| BitVec.ofNat 32 (t.toNat * 2 ^ 17) |||
      BitVec.ofNat 32 (ifb.toNat * 2 ^ 16)) = .ok (.verify ifb t) := by
  have := ifb.toNat_le
  have := t.toNat_le
  have hoperands := toNat_fields_or (a := t.toNat) (b := ifb.toNat * 2 ^ 16) (k := 17)
    (by omega) (by omega) (by omega)
  rw [BitVec.or_assoc]
  exact decode_pattern_or (i := .verify ifb t) rfl hoperands

end Sys2Proof

namespace Sys2Proof.Machine

/-! ### Sums by index -/

theorem slice_cons_zero (x : Byte) (d : List Byte) (b : Int) :
    slice (x :: d) 0 b = if 0 < b then x :: slice d 0 (b - 1) else [] := by
  split
  case isTrue h =>
    obtain ⟨n, rfl⟩ : ∃ n : Nat, b = n + 1 := ⟨(b - 1).toNat, by omega⟩
    simp [slice]
  case isFalse h => exact slice_eq_nil _ (by omega)

theorem slice_cons_succ (x : Byte) (d : List Byte) (a : Nat) (b : Int) :
    slice (x :: d) (a + 1) b = slice d a (b - 1) := by
  by_cases h : 0 < b
  · obtain ⟨n, rfl⟩ : ∃ n : Nat, b = n + 1 := ⟨(b - 1).toNat, by omega⟩
    simp [slice]
  · rw [slice_eq_nil _ (by omega), slice_eq_nil _ (by omega)]

/-- R7: `d[a..b)` has the bytes of `d` at the indices `a <= i < b`. -/
theorem sumBytes_slice (d : List Byte) (a : Nat) (b : Int) :
    sumBytes (slice d a b) = ∑ i ∈ Finset.range d.length,
      if a ≤ i ∧ (i : Int) < b then (d.getD i 0).toNat else 0 := by
  induction d generalizing a b with
  | nil => simp [slice]
  | cons x d ih =>
    have hshift (i : Nat) : (i : Int) + 1 < b ↔ (i : Int) < b - 1 := by omega
    rw [List.length_cons, Finset.sum_range_succ']
    cases a with
    | zero =>
      rw [slice_cons_zero]
      split
      case isTrue h => simp [ih, hshift, h, Nat.add_comm]
      case isFalse h =>
        have hout (i : Nat) : ¬ (i : Int) + 1 < b := by omega
        simp [h, hout]
    | succ a => simp [slice_cons_succ, ih, hshift]

theorem sumBytes_drop (d : List Byte) (a : Nat) :
    sumBytes (d.drop a) = ∑ i ∈ Finset.range d.length, if a ≤ i then (d.getD i 0).toNat else 0 := by
  rw [← slice_full, sumBytes_slice]
  refine Finset.sum_congr rfl fun i hi => ?_
  have hlt : (i : Int) < d.length := by exact_mod_cast Finset.mem_range.mp hi
  simp only [hlt, and_true]

/-! ### The checksum of a range -/

/-- R83: the checksum as RES holds it. -/
theorem checksumOf_setWidth (l : List Byte) :
    (checksumOf l).setWidth 32 = BitVec.ofNat 32 ((255 - sumBytes l % 256 + 1) % 256) := by
  rw [checksumOf, BitVec.setWidth_ofNat_of_le_of_lt (by decide) (by omega)]

theorem checksumOf_perm {a b : List Byte} (h : a.Perm b) : checksumOf a = checksumOf b := by
  rw [checksumOf, checksumOf, sumBytes_perm h]

/-- Settles O25: the checksum is the byte that completes the sum, and the sum keeps its value under
a permutation. -/
theorem checksumCompletesTheSum : Obligations.ChecksumCompletesTheSum :=
  ⟨fun range => (checksumOf_eq_iff range _).mp rfl, fun _ _ => checksumOf_perm⟩

/-! ### The selected range -/

/-- D8 (log entry 4): a negative length that reaches the start selects nothing. -/
theorem selectedRange_eq_nil (d : List Byte) (ifb : Bool) {len : Int} (hneg : len < 0)
    (h : (d.length : Int) - rangeStart ifb ≤ -len) : selectedRange d ifb len = [] := by
  have hend : rangeEnd d.length ifb len = d.length + len := by
    rw [rangeEnd, if_neg (by omega), if_pos hneg]
  exact slice_eq_nil d (by omega)

/-- R81: a length at or past the end is cut at the end. -/
theorem selectedRange_eq_of_length_le (d : List Byte) (ifb : Bool) {len : Int} (hpos : 0 < len)
    (h : (d.length : Int) ≤ len) : selectedRange d ifb len = selectedRange d ifb 0 := by
  have hend : rangeEnd d.length ifb len = d.length := by
    rw [rangeEnd, if_pos hpos, min_eq_right (by omega)]
  rw [selectedRange, hend, selectedRange, rangeEnd_zero]

/-! ### The comparison of VERIFY -/

/-- R86 as a sum: the last byte completes the sum of the bytes before it to 0. -/
theorem verifyMatch_iff_sum {d : List Byte} {ifb : Bool} (h : rangeStart ifb < d.length) :
    verifyMatch d ifb = true ↔ sumBytes (d.drop (rangeStart ifb)) % 256 = 0 := by
  obtain rfl | ⟨f, k, rfl⟩ := d.eq_nil_or_concat'
  · exact absurd h (Nat.not_lt_zero _)
  · rw [List.length_append, List.length_singleton] at h
    rw [verifyMatch_concat, decide_eq_true_iff, checksumOf_eq_iff,
      List.drop_append_of_le_length (by omega), sumBytes_append, sumBytes_cons, sumBytes_nil,
      Nat.add_zero]

/-- R86 by index: the last byte against the checksum of the indices from the start on before it. -/
theorem verifyMatch_eq_decide_sum {d : List Byte} (ifb : Bool) (h : d ≠ []) :
    verifyMatch d ifb =
      decide ((255 - (∑ i ∈ Finset.range (d.length - 1),
        if rangeStart ifb ≤ i then (d.getD i 0).toNat else 0) % 256 + 1) % 256 =
          (d.getD (d.length - 1) 0).toNat) := by
  obtain rfl | ⟨f, k, rfl⟩ := d.eq_nil_or_concat'
  · exact absurd rfl h
  · have hlen : (f ++ [k]).length - 1 = f.length := by simp
    have hlast : (f ++ [k]).getD f.length 0 = k := by simp
    have hsum : sumBytes (f.drop (rangeStart ifb)) = ∑ i ∈ Finset.range f.length,
        if rangeStart ifb ≤ i then ((f ++ [k]).getD i 0).toNat else 0 := by
      rw [sumBytes_drop]
      refine Finset.sum_congr rfl fun i hi => ?_
      rw [List.getD_append _ _ _ _ (Finset.mem_range.mp hi)]
    rw [verifyMatch_concat, hlen, hlast, ← hsum, decide_eq_decide, ← BitVec.toNat_inj,
      checksumOf, BitVec.toNat_ofNat, Nat.mod_mod]

/-! ### CSUM -/

section
variable {s : State} (ifb : Bool) (len : Int)

theorem exec_csum_of_le (h : 4 ≤ s.len) : exec (.csum ifb len) s =
    .next (complete (setRes ((checksumOf (selectedRange s.buf ifb len)).setWidth 32) s)) :=
  (exec_eq_execAt _ s).trans (Completed.csum ifb len h).execAt_eq

theorem exec_csum_of_lt (h : s.len < 4) : exec (.csum ifb len) s = .next (raise .invalidInput s) :=
  (exec_eq_execAt _ s).trans (Raised.csum ifb len h).execAt_eq

end

/-- Settles O20: the sum of the selected range is the sum over the indices `s <= i < e`. -/
theorem csumComputesTheChecksumOfTheRange : Obligations.CsumComputesTheChecksumOfTheRange := by
  refine ⟨fun ifb len => decode_csum_word ifb, fun s ifb len => ⟨exec_csum_of_lt ifb len, ?_⟩⟩
  intro h start stop t
  have hsum : sumBytes (selectedRange s.buf ifb len) % 256 = t :=
    congrArg (· % 256) (sumBytes_slice s.buf (rangeStart ifb) (rangeEnd s.buf.length ifb len))
  rw [exec_csum_of_le ifb len h, checksumOf_setWidth, hsum]
  rfl

/-- Settles O21: the selected range is empty in the first corner and that of length 0 in the other. -/
theorem csumRangeCorners : Obligations.CsumRangeCorners := by
  refine fun s ifb len h => ⟨fun hneg hstart => ?_, fun hend => ?_⟩
  · have hcast : (rangeStart ifb : Int) = if ifb = true then 0 else 1 := by cases ifb <;> rfl
    have hnil : selectedRange s.buf ifb len = [] :=
      selectedRange_eq_nil s.buf ifb hneg (hcast ▸ hstart)
    rw [exec_csum_of_le ifb len h, hnil]
    rfl
  · have hpos : 0 < len := by omega
    rw [exec_csum_of_le ifb len h, exec_csum_of_le ifb 0 h,
      selectedRange_eq_of_length_le s.buf ifb hpos hend]

/-! ### VERIFY -/

section
variable {s : State} {ifb : Bool}

theorem exec_verify_of_lt (t : Bool) (h : s.len < 5) :
    exec (.verify ifb t) s = .next (raise .invalidInput (setV false s)) :=
  (exec_eq_execAt _ s).trans (Raised.verifyShort ifb t h).execAt_eq

theorem exec_verify_of_match (t : Bool) (h : 5 ≤ s.len) (hm : verifyMatch s.buf ifb = true) :
    exec (.verify ifb t) s = .next (complete (setRes 1 (setV true s))) :=
  (exec_eq_execAt _ s).trans (Completed.verifyMatch ifb t h hm).execAt_eq

theorem exec_verify_of_mismatch (h : 5 ≤ s.len) (hm : verifyMatch s.buf ifb = false) :
    exec (.verify ifb false) s = .next (complete (setRes 0 (setV false s))) :=
  (exec_eq_execAt _ s).trans (Completed.verifyMismatch ifb h hm).execAt_eq

theorem exec_verify_strict_of_mismatch (h : 5 ≤ s.len) (hm : verifyMatch s.buf ifb = false) :
    exec (.verify ifb true) s = .next (raise .checksumMismatch (setV false s)) :=
  (exec_eq_execAt _ s).trans (Raised.verifyMismatch ifb h hm).execAt_eq

end

/-- Settles O22: `m` is the comparison the model makes, and each of its outcomes is one form of
VERIFY. -/
theorem verifyComparesTheLastByte : Obligations.VerifyComparesTheLastByte := by
  refine ⟨decode_verify_word, fun s ifb t => ⟨exec_verify_of_lt t, fun h => ?_⟩⟩
  have hne : s.buf ≠ [] := List.ne_nil_of_length_pos (Nat.zero_lt_of_lt h)
  intro start sum m
  have hm : verifyMatch s.buf ifb = m := verifyMatch_eq_decide_sum ifb hne
  refine ⟨fun hmatch => exec_verify_of_match t h (hm.trans hmatch), ?_, ?_⟩
  · rintro hmismatch rfl
    exact exec_verify_of_mismatch h (hm.trans hmismatch)
  · rintro hmismatch rfl
    exact exec_verify_strict_of_mismatch h (hm.trans hmismatch)

/-! ### The outcome as a function of BUF -/

section
variable {c : Config} {s t : State} {ifb strict : Bool} {len : Int}

/-- What CSUM leaves in ERR, and in RES when that is 0. -/
theorem execAt_csum_outcome (h : execAt c (.csum ifb len) s = .next t) :
    t.err = (if s.buf.length < 4 then 1 else 0) ∧
      (t.err = 0 → t.res = (checksumOf (selectedRange s.buf ifb len)).setWidth 32) := by
  obtain hi | hi := execAt_next h
  · cases hi with
    | csum _ _ hl => exact ⟨(if_neg (Nat.not_lt.mpr hl)).symm, fun _ => rfl⟩
  · have herr := hi.err_ne_zero
    cases hi with
    | csum _ _ hl => exact ⟨(if_pos hl).symm, fun hz => absurd hz herr⟩

/-- What VERIFY leaves in ERR and V, and in RES when ERR is 0. -/
theorem execAt_verify_outcome (h : execAt c (.verify ifb strict) s = .next t) :
    t.err = (if s.buf.length < c.verifyMinLen then 1
      else if strict && !verifyMatch s.buf ifb then 3 else 0) ∧
    t.v = (decide (c.verifyMinLen ≤ s.buf.length) && verifyMatch s.buf ifb) ∧
    (t.err = 0 → t.res = BitVec.ofNat 32 (verifyMatch s.buf ifb).toNat) := by
  obtain hi | hi := execAt_next h
  · cases hi with
    | verifyMatch _ _ hl hm =>
      have hl : c.verifyMinLen ≤ s.buf.length := hl
      simp [hm, hl, Nat.not_lt.mpr hl]
    | verifyMismatch _ hl hm =>
      have hl : c.verifyMinLen ≤ s.buf.length := hl
      simp [hm, hl, Nat.not_lt.mpr hl]
  · have herr := hi.err_ne_zero
    refine ⟨?_, ?_, fun hz => absurd hz herr⟩
    all_goals cases hi with
    | verifyShort _ _ hl =>
      have hl : s.buf.length < c.verifyMinLen := hl
      simp [hl, ErrorKind.code]
    | verifyMismatch _ hl hm =>
      have hl : c.verifyMinLen ≤ s.buf.length := hl
      simp [hm, hl, Nat.not_lt.mpr hl, ErrorKind.code]

end

/-- Settles O23: the error of VERIFY is 1 exactly below the guard, which is 4 or 5. -/
theorem verifyLengthGuardOfEveryBlock : Obligations.VerifyLengthGuardOfEveryBlock := by
  intro c s t ifb strict hc h
  obtain ⟨herr, hv, -⟩ := execAt_verify_outcome h
  have hguard : t.err = 1 ↔ s.len < c.verifyMinLen := by
    rw [herr, State.len]
    split
    case isTrue hlt => exact iff_of_true rfl hlt
    case isFalse hge => exact iff_of_false (by split <;> decide) hge
  obtain ⟨-, -, -, -, -, hmin⟩ := hc
  refine ⟨hguard, fun h1 => ?_, fun hl => hguard.mpr (by omega), fun hl h1 => ?_⟩
  · have hlt : s.buf.length < c.verifyMinLen := hguard.mp h1
    rw [hv, decide_eq_false (Nat.not_le.mpr hlt), Bool.false_and]
  · have := hguard.mp h1
    omega

/-- Settles O24: V is the comparison, which is the sum of all bytes from the start on. -/
theorem verifyMatchesExactlyWhenTheSumIsZero :
    Obligations.VerifyMatchesExactlyWhenTheSumIsZero := by
  intro s t ifb strict hl h
  have hl : 5 ≤ s.buf.length := hl
  have hstart : rangeStart ifb < s.buf.length := by cases ifb <;> simp [rangeStart] <;> omega
  obtain ⟨-, hv, -⟩ := execAt_verify_outcome (exec_eq_execAt _ s ▸ h)
  have hlong : decide (Config.hardware.verifyMinLen ≤ s.buf.length) = true := decide_eq_true hl
  rw [hv, hlong, Bool.true_and]
  exact verifyMatch_iff_sum hstart

/-- Settles O27: both outcomes are functions of BUF and the fields. -/
theorem checksumCommandsDependOnTheBufferOnly :
    Obligations.ChecksumCommandsDependOnTheBufferOnly := by
  refine fun c s s' t t' hbuf => ⟨fun ifb len h h' => ?_, fun ifb strict h h' => ?_⟩
  · obtain ⟨herr, hres⟩ := execAt_csum_outcome h
    obtain ⟨herr', hres'⟩ := execAt_csum_outcome h'
    rw [← hbuf] at herr' hres'
    have hsame := herr.trans herr'.symm
    exact ⟨hsame, fun hz => (hres hz).trans (hres' (hsame ▸ hz)).symm⟩
  · obtain ⟨herr, hv, hres⟩ := execAt_verify_outcome h
    obtain ⟨herr', hv', hres'⟩ := execAt_verify_outcome h'
    rw [← hbuf] at herr' hv' hres'
    have hsame := herr.trans herr'.symm
    exact ⟨hsame, hv.trans hv'.symm, fun hz => (hres hz).trans (hres' (hsame ▸ hz)).symm⟩

/-! ### The round trip -/

/-- R74 with a byte in RES: that byte is appended. -/
theorem exec_bpushr_of_res {s : State} {k : Byte} (hres : s.res = k.setWidth 32)
    (h : s.len < 64) : exec .bpushr s = .next (complete (replaceBuf (s.buf ++ [k]) s)) := by
  have hbyte : BitVec.ofNat 8 s.res.toNat = k := by
    rw [hres, BitVec.toNat_setWidth_of_le (by decide), BitVec.ofNat_toNat, BitVec.setWidth_eq]
  rw [exec_eq_execAt, (Completed.bpushr h).execAt_eq, hbyte]

/-- The checksum of a buffer, appended to it, is what VERIFY compares with. -/
theorem verifyMatch_append_checksumOf (f : List Byte) (ifb : Bool) :
    verifyMatch (f ++ [checksumOf (f.drop (rangeStart ifb))]) ifb = true := by
  rw [verifyMatch_concat, decide_eq_true_iff]

/-- Settles O26: BPUSHR appends the checksum CSUM left in RES, so VERIFY finds a match. -/
theorem checksumRoundTrip : Obligations.ChecksumRoundTrip := by
  intro s ifb strict hmin hmax
  have hmatch := verifyMatch_append_checksumOf s.buf ifb
  have hcsum := exec_csum_of_le ifb 0 hmin
  rw [selectedRange_zero] at hcsum
  generalize checksumOf (s.buf.drop (rangeStart ifb)) = k at hmatch hcsum
  have hpush := exec_bpushr_of_res (s := complete (setRes (k.setWidth 32) s)) rfl hmax
  have hlen : 5 ≤ (s.buf ++ [k]).length := by
    rw [List.length_append]
    exact Nat.succ_le_succ hmin
  refine ⟨_, k, ?_, rfl⟩
  rw [runInstrs_cons_of_next _ hcsum, runInstrs_cons_of_next _ hpush]
  exact runInstrs_cons_of_next [] (exec_verify_of_match strict hlen hmatch)

end Sys2Proof.Machine
end

section
/-! PROOFS. The frame builder (spec/42_frame_builder.md R90 to R98): the words of its commands, the
encoding of a staged operand, and the frame of BUILD under VERIFY and CSUM. -/

namespace Sys2Proof

/-! ### The words of the operand commands -/

theorem decode_opset_word (sel : OperandSel) (tag : Tag) :
    decode (0x30000000#32 ||| BitVec.ofNat 32 (sel.code * 2 ^ 8) ||| BitVec.ofNat 32 tag.code) =
      .ok (.opset sel tag) := by
  have := sel.code_lt
  have := tag.code_lt
  have hoperands := toNat_fields_or (a := sel.code) (b := tag.code) (k := 8)
    (by omega) (by omega) (by omega)
  rw [BitVec.or_assoc]
  exact decode_pattern_or (i := .opset sel tag) rfl hoperands

theorem decode_oppush_word (sel : OperandSel) (imm8 : Byte) :
    decode (0x31000000#32 ||| BitVec.ofNat 32 (sel.code * 2 ^ 8) ||| imm8.setWidth 32) =
      .ok (.oppush sel imm8) := by
  have := sel.code_lt
  have hoperands := toNat_fields_or (a := sel.code) (b := imm8.toNat) (k := 8)
    (by omega) imm8.isLt (by omega)
  rw [BitVec.or_assoc, ← BitVec.ofNat_toNat]
  exact decode_pattern_or (i := .oppush sel imm8) rfl hoperands

end Sys2Proof

namespace Sys2Proof.Machine

/-! ### OPSET and OPPUSH -/

/-- Settles O28: OPSET writes the tag and no bytes to the register `sel` names. -/
theorem opsetDeclaresTheOperand : Obligations.OpsetDeclaresTheOperand :=
  ⟨decode_opset_word, fun _ _ => ⟨rfl, rfl⟩⟩

section
variable {sel : OperandSel} (imm8 : Byte) {s : State}

theorem exec_oppush_of_lt (h : (getOperand sel s).bytes.length < 8) :
    exec (.oppush sel imm8) s = .next (complete (putOperand sel
      { tag := (getOperand sel s).tag, bytes := (getOperand sel s).bytes ++ [imm8] } s)) :=
  (exec_eq_execAt _ s).trans (Completed.oppush sel imm8 h).execAt_eq

theorem exec_oppush_of_full (h : (getOperand sel s).bytes.length = 8) :
    exec (.oppush sel imm8) s = .next (raise .bufferFull s) :=
  (exec_eq_execAt _ s).trans (Raised.oppush sel imm8 h.ge).execAt_eq

end

/-- Settles O29: one rule below the capacity and one at it, for each register. -/
theorem oppushAppendsToTheOperand : Obligations.OppushAppendsToTheOperand :=
  ⟨decode_oppush_word, fun _ imm8 => ⟨exec_oppush_of_lt (sel := .opc) imm8,
    exec_oppush_of_lt (sel := .opp) imm8, fun _ => exec_oppush_of_full imm8⟩⟩

/-! ### The encoding of a staged operand -/

/-- What the stripping of R93 takes away is zero bytes. -/
theorem exists_replicate_append_stripLeadingZeros (b : List Byte) :
    ∃ z, b = List.replicate z 0 ++ stripLeadingZeros b := by
  induction b with
  | nil => exact ⟨0, rfl⟩
  | cons x b ih =>
    obtain ⟨z, hz⟩ := ih
    rw [stripLeadingZeros]
    split
    case isTrue hx => exact ⟨z + 1, by rw [List.replicate_succ, List.cons_append, ← hz, hx]⟩
    case isFalse => exact ⟨0, rfl⟩

/-- Settles O30: `r` is what the stripping leaves. -/
theorem operandEncoding : Obligations.OperandEncoding := by
  intro b
  obtain ⟨z, hz⟩ := exists_replicate_append_stripLeadingZeros b
  exact ⟨rfl, z, stripLeadingZeros b, hz, stripLeadingZeros_head b,
    congrArg some (minimalInt_eq b)⟩

/-- Settles O31: the stripping keeps the value, and no leading zero byte is left to spare. -/
theorem intOperandEncodingIsMinimal : Obligations.IntOperandEncodingIsMinimal := by
  intro b m h
  obtain rfl : minimalInt b = m := Option.some.inj h
  exact ⟨beValue_minimalInt b, minimalInt_length b⟩

/-- R94: the two types BUILD refuses. -/
theorem encOperand_eq_none_iff {o : Operand} :
    encOperand o = none ↔ o.tag = .text ∨ o.tag = .none := by
  obtain ⟨tag, bytes⟩ := o
  cases tag <;> simp [encOperand]

/-- R95: with `dp` the payload does not depend on OPP. -/
theorem payloadBytes_eq_none_iff {dp : Bool} {s : State} :
    payloadBytes dp s = none ↔ dp = false ∧ (s.opp.tag = .text ∨ s.opp.tag = .none) := by
  rw [← encOperand_eq_none_iff]
  cases dp <;> simp [payloadBytes]

/-! ### BUILD -/

/-- The header's second byte is 1 and the trailer is zero, so R92's sum is that of the operands. -/
theorem sumBytes_frameBody_tail (command payload : List Byte) :
    sumBytes ((frameBody command payload).drop 1) = 1 + sumBytes command + sumBytes payload := by
  simp [frameBody]
  omega

theorem exec_build_of_refused {dp : Bool} {s : State}
    (h : encOperand s.opc = none ∨ payloadBytes dp s = none) :
    exec (.build dp) s = .next (raise .unsupportedType s) :=
  (exec_eq_execAt _ s).trans (Raised.build dp h).execAt_eq

theorem exec_build_of_encoded {dp : Bool} {s : State} {command payload : List Byte} {k : Byte}
    (hc : encOperand s.opc = some command) (hp : payloadBytes dp s = some payload)
    (hk : k = checksumOf ((frameBody command payload).drop 1)) :
    exec (.build dp) s =
      .next (complete (setRes (k.setWidth 32) (replaceBuf (frameBody command payload ++ [k]) s))) :=
  (exec_eq_execAt _ s).trans (Completed.build dp command payload k hc hp hk).execAt_eq

/-- Settles O32: the types alone refuse a BUILD, and else its checksum is that of the body. -/
theorem buildAssemblesTheFrame : Obligations.BuildAssemblesTheFrame := by
  refine ⟨by decide, fun s dp => ⟨fun h => ?_, fun command payload hc hdp hopp => ?_⟩⟩
  · have hrefused : encOperand s.opc = none ∨ payloadBytes dp s = none := by
      rwa [encOperand_eq_none_iff, payloadBytes_eq_none_iff, or_assoc]
    exact exec_build_of_refused hrefused
  · have hp : payloadBytes dp s = some payload := by
      cases dp with
      | false => exact hopp rfl
      | true => rw [hdp rfl]; rfl
    refine ⟨_, exec_build_of_encoded hc hp rfl, ?_⟩
    rw [checksumOf_toNat, sumBytes_frameBody_tail]
    omega

/-! ### A built frame under VERIFY and CSUM -/

/-- A BUILD without error leaves the byte 0xFF, the bytes the checksum covers, and the checksum. -/
theorem exec_build_buf_of_err_eq_zero {dp : Bool} {s t : State} (h : exec (.build dp) s = .next t)
    (herr : t.err = 0) :
    ∃ covered, 4 ≤ covered.length ∧ t.buf = 0xFF :: covered ++ [checksumOf covered] := by
  obtain hi | hi := exec_next h
  · cases hi with
    | build _ command payload k hc hp hk =>
      have hlen := frameBody_length command payload
      refine ⟨(frameBody command payload).drop 1, ?_, ?_⟩
      · rw [List.length_drop]; omega
      · rw [hk]; rfl
  · exact absurd herr hi.err_ne_zero

/-- R81: length -1 leaves out the last byte. -/
theorem selectedRange_concat_neg_one (f : List Byte) (k : Byte) (ifb : Bool) :
    selectedRange (f ++ [k]) ifb (-1) = f.drop (rangeStart ifb) := by
  have hend : rangeEnd (f ++ [k]).length ifb (-1) = f.length := by simp [rangeEnd]
  rw [selectedRange, hend, slice, Int.toNat_natCast, List.take_left]

/-- The checksum of the bytes after a byte 0xFF does not complete the sum that counts this byte. -/
theorem verifyMatch_with_header (covered : List Byte) :
    verifyMatch (0xFF :: covered ++ [checksumOf covered]) true = false := by
  have hcovered := (checksumOf_eq_iff covered _).mp rfl
  have hheader : checksumOf (0xFF :: covered) ≠ checksumOf covered := by
    have hff : (0xFF : Byte).toNat = 255 := rfl
    rw [ne_eq, checksumOf_eq_iff, sumBytes_cons, hff]
    omega
  rw [verifyMatch_concat]
  exact decide_eq_false hheader

/-- Settles O34: the frame's checksum covers what `ifb = 0` selects, and not the byte 0xFF that
`ifb = 1` adds. -/
theorem builtFrameVerifies : Obligations.BuiltFrameVerifies := by
  intro s t dp strict h herr
  obtain ⟨covered, hcovered, hbuf⟩ := exec_build_buf_of_err_eq_zero h herr
  have hlen : 5 ≤ t.len := by
    rw [State.len, hbuf, List.length_append, List.length_cons, List.length_singleton]
    omega
  have hmatch : verifyMatch t.buf false = true :=
    hbuf ▸ verifyMatch_append_checksumOf (0xFF :: covered) false
  have hmismatch : verifyMatch t.buf true = false := hbuf ▸ verifyMatch_with_header covered
  have hrange : selectedRange t.buf false (-1) = covered :=
    hbuf ▸ selectedRange_concat_neg_one (0xFF :: covered) _ false
  refine ⟨exec_verify_of_match strict hlen hmatch, ⟨checksumOf covered, ?_, ?_⟩,
    exec_verify_of_mismatch hlen hmismatch, exec_verify_strict_of_mismatch hlen hmismatch⟩
  · rw [hbuf, List.getLast?_concat]
  · rw [exec_csum_of_le false (-1) (by omega), hrange]
    rfl

end Sys2Proof.Machine
end

section
/-! PROOFS. The field extractors (spec/43_field_extractor.md R100 to R112): their words,
the fields and nibbles of their results, and what an extractor reads. -/

namespace Sys2Proof

/-! ### The words of the extractors -/

/-- The word of a command whose only operand is an offset in bits 7 to 0. -/
theorem decode_offset_word {i : Instr} {off : Nat} (hwf : i.wf = offsetOk off)
    (hoperands : i.operands = off) (h : off < 256) :
    decode (i.mnemonic.pattern ||| BitVec.ofNat 32 off) = .ok i := by
  have hx : (BitVec.ofNat 32 off).toNat = i.operands := by rw [BitVec.toNat_ofNat, hoperands]; omega
  exact decode_pattern_or (hwf.trans (decide_eq_true h)) hx

theorem decode_xbit_word (off k : Nat) (hoff : off < 256) (hk : k < 8) :
    decode (0x46000000#32 ||| BitVec.ofNat 32 (k * 2 ^ 8) ||| BitVec.ofNat 32 off) =
      .ok (.xbit off k) := by
  have hwf : (Instr.xbit off k).wf = true :=
    Bool.and_eq_true_iff.mpr ⟨decide_eq_true hoff, decide_eq_true hk⟩
  have hoperands := toNat_fields_or (a := k) (b := off) (k := 8) (by omega) hoff (by omega)
  rw [BitVec.or_assoc]
  exact decode_pattern_or hwf hoperands

end Sys2Proof

namespace Sys2Proof.Machine

variable {c : Config} {i : Instr} {s t : State}

/-! ### The answer of a command that completes, and of an extractor past its window -/

theorem Completed.exec_eq (h : Completed Config.hardware s i t) : exec i s = .next t :=
  (exec_eq_execAt i s).trans h.execAt_eq

/-- A listed form of completion is the only answer. -/
theorem Completed.eq_of_execAt {t' : State} (h : Completed c s i t) (h' : execAt c i s = .next t') :
    t' = t := by
  rw [h.execAt_eq] at h'
  injection h' with e
  exact e.symm

theorem Completed.eq_of_exec {t' : State} (h : Completed Config.hardware s i t)
    (h' : exec i s = .next t') : t' = t :=
  h.eq_of_execAt (exec_eq_execAt i s ▸ h')

theorem exec_of_window_gt {off w : Nat} (hw : windowOf i = some (off, w)) (h : s.len < off + w) :
    exec i s = .next { s with err := 4, faults := s.faults ||| 0x10 } :=
  (extractorsCheckTheirWindow i s off w hw).1 h

/-! ### XU8, XU16 and XCENTI -/

/-- Settles O35: a byte at `off` is XU8's window. -/
theorem xu8ReadsTheByte : Obligations.Xu8ReadsTheByte :=
  ⟨fun _ => decode_offset_word (i := .xu8 _) rfl rfl, fun _ off =>
    ⟨fun b h => (Completed.xu8 off b h).exec_eq, exec_of_window_gt rfl⟩⟩

/-- Settles O36: the field is below 65536, so RES holds it whole. -/
theorem xu16ReadsTheBigEndianField : Obligations.Xu16ReadsTheBigEndianField := by
  refine ⟨fun _ => decode_offset_word (i := .xu16 _) rfl rfl, fun s off =>
    ⟨fun hi lo h h' => ⟨_, (Completed.xu16 off hi lo h h').exec_eq, rfl, ?_⟩,
      exec_of_window_gt rfl⟩⟩
  exact Nat.mod_eq_of_lt ((be16_lt hi lo).trans (by decide))

/-- R104's two fields of RES. -/
theorem bits_centiResult {raw : Nat} (h : raw < 65536) :
    bits (centiResult raw) 31 16 = raw / 100 ∧ bits (centiResult raw) 15 0 = raw % 100 := by
  simp only [bits, centiResult_toNat h]
  omega

/-- Settles O37, by the two fields of R104. -/
theorem xcentiDividesByOneHundred : Obligations.XcentiDividesByOneHundred :=
  ⟨fun _ => decode_offset_word (i := .xcenti _) rfl rfl, fun _ off =>
    ⟨fun hi lo h h' => ⟨_, (Completed.xcenti off hi lo h h').exec_eq, rfl,
      bits_centiResult (be16_lt hi lo)⟩, exec_of_window_gt rfl⟩⟩

/-- R105: quotient and remainder together lose nothing of the field. -/
theorem centiValue_centiResult {raw : Nat} (h : raw < 65536) :
    centiValue (centiResult raw) = (raw : Rat) / 100 := by
  obtain ⟨hq, hr⟩ := bits_centiResult h
  have hraw : ((100 * (raw / 100) + raw % 100 : Nat) : Rat) = raw :=
    congrArg Nat.cast (Nat.div_add_mod raw 100)
  rw [centiValue, hq, hr, ← hraw]
  push_cast
  ring

/-- Settles O38: the only answer of XCENTI on its window is R104's, whose value is the field's. -/
theorem xcentiDenotesTheFieldOverOneHundred :
    Obligations.XcentiDenotesTheFieldOverOneHundred := by
  intro s t off hi lo h h' hexec
  rw [(Completed.xcenti off hi lo h h').eq_of_exec hexec]
  exact centiValue_centiResult (be16_lt hi lo)

/-! ### XUNIT -/

theorem unitIndex_of_unrecognised {b : Byte} (h₁ : b ≠ 0x02) (h₂ : b ≠ 0x04) (h₃ : b ≠ 0x08) :
    unitIndex b = 0 := by
  rw [unitIndex, if_neg h₁, if_neg h₂, if_neg h₃]

theorem exec_xunit_of_index {off n : Nat} {b : Byte} (h : s.readByte off = some b)
    (hn : unitIndex b = n) : exec (.xunit off) s =
      .next { s with res := BitVec.ofNat 32 n, u := decide (n ≠ 0), err := 0 } :=
  hn ▸ (Completed.xunit off b h).exec_eq

/-- Settles O39, by the index of each byte of R106's table and of any other. -/
theorem xunitClassifiesTheByte : Obligations.XunitClassifiesTheByte :=
  ⟨fun _ => decode_offset_word (i := .xunit _) rfl rfl, fun _ _ =>
    ⟨fun h => exec_xunit_of_index h rfl, fun h => exec_xunit_of_index h rfl,
      fun h => exec_xunit_of_index h rfl,
      fun _ h h₁ h₂ h₃ => exec_xunit_of_index h (unitIndex_of_unrecognised h₁ h₂ h₃),
      exec_of_window_gt rfl, rfl, rfl, rfl, rfl⟩⟩

/-! ### XDP and XDS with the default `NIBBLE_MAP` -/

/-- Settles O40: the default map gives XDP the high nibble. -/
theorem xdpGivesTheHighNibble : Obligations.XdpGivesTheHighNibble :=
  ⟨fun _ => decode_offset_word (i := .xdp _) rfl rfl, fun _ off =>
    ⟨fun b h => (Completed.xdp off b h).exec_eq, exec_of_window_gt rfl⟩⟩

/-- Settles O41: the default map gives XDS the low nibble. -/
theorem xdsGivesTheLowNibble : Obligations.XdsGivesTheLowNibble :=
  ⟨fun _ => decode_offset_word (i := .xds _) rfl rfl, fun _ off =>
    ⟨fun b h => (Completed.xds off b h).exec_eq, exec_of_window_gt rfl⟩⟩

/-! ### The nibbles bit by bit -/

theorem ofNat_toNat_of_nibble {n : Nat} (h : n < 16) : (BitVec.ofNat 32 n).toNat = n :=
  Nat.mod_eq_of_lt (h.trans (by decide))

theorem testBit_highNibble (b : Byte) (j : Nat) : (highNibble b).testBit j = b.getLsbD (4 + j) := by
  have hdiv : (b.toNat / 2 ^ 4).testBit j = b.toNat.testBit (j + 4) := Nat.testBit_div_two_pow ..
  rw [← BitVec.testBit_toNat, Nat.add_comm, ← hdiv]
  rfl

section
variable {j : Nat} (hj : j < 4)
include hj

theorem testBit_lowNibble (b : Byte) : (lowNibble b).testBit j = b.getLsbD j := by
  rw [lowNibble, Nat.testBit_mod_two_pow (j := 4), decide_eq_true hj, Bool.true_and,
    BitVec.testBit_toNat]

/-- R108: `rev4` puts bit `3 - j` of a nibble at bit `j`. -/
theorem testBit_rev4 {x : Nat} (hx : x < 16) : (rev4 x).testBit j = x.testBit (3 - j) := by
  have all : ∀ (y : Fin 16) (k : Fin 4), (rev4 y).testBit k = (y : Nat).testBit (3 - k) := by decide
  exact all ⟨x, hx⟩ ⟨j, hj⟩

theorem getLsbD_ofNat_nibble (x : Nat) : (BitVec.ofNat 32 x).getLsbD j = x.testBit j := by
  rw [BitVec.getLsbD_ofNat, decide_eq_true (by omega), Bool.true_and]

end

/-- Settles O42, by the bits of the two nibbles and of `rev4`. -/
theorem nibbleMapTable : Obligations.NibbleMapTable := by
  intro c s off b h
  refine ⟨_, _, (Completed.xdp off b h).execAt_eq, (Completed.xds off b h).execAt_eq,
    (ofNat_toNat_of_nibble (decimalPlaces_lt _ b)).trans_lt (decimalPlaces_lt _ b),
    (ofNat_toNat_of_nibble (dataSign_lt _ b)).trans_lt (dataSign_lt _ b), fun j hj => ?_⟩
  have hhigh := testBit_highNibble b j
  have hlow := testBit_lowNibble hj b
  have hrevLow : (rev4 (lowNibble b)).testBit j = b.getLsbD (3 - j) :=
    (testBit_rev4 hj (lowNibble_lt b)).trans (testBit_lowNibble (by omega) b)
  have hrevHigh : (rev4 (highNibble b)).testBit j = b.getLsbD (7 - j) := by
    rw [testBit_rev4 hj (highNibble_lt b), testBit_highNibble]
    congr 1
    omega
  simp only [complete_res, setRes_res, getLsbD_ofNat_nibble hj]
  refine ⟨fun hm => ?_, fun hm => ?_, fun hm => ?_, fun hm => ?_⟩ <;> rw [hm]
  · exact ⟨hhigh, hlow⟩
  · exact ⟨hlow, hhigh⟩
  · exact ⟨hhigh, hrevLow⟩
  · exact ⟨hlow, hrevHigh⟩

/-! ### The byte from its nibbles -/

/-- R112's formulas undo R108's table. -/
theorem recombine_nibbles (m : NibbleMap) (b : Byte) :
    recombine m (decimalPlaces m b) (dataSign m b) = b.toNat := by
  have hsplit : 16 * highNibble b + lowNibble b = b.toNat := Nat.div_add_mod b.toNat 16
  cases m with
  | hiLoPlain | loHiPlain => exact hsplit
  | hiPlainLoRev => rw [recombine, dataSign, rev4_rev4 (lowNibble_lt b)]; exact hsplit
  | loPlainHiRev => rw [recombine, dataSign, rev4_rev4 (highNibble_lt b)]; exact hsplit

/-- Settles O43: RES holds each nibble whole, and R112's formulas undo R108's table. -/
theorem nibblesRecoverTheByte : Obligations.NibblesRecoverTheByte := by
  intro c s dp ds off b h hdp hds
  rw [(Completed.xdp off b h).eq_of_execAt hdp, (Completed.xds off b h).eq_of_execAt hds,
    complete_res, setRes_res, complete_res, setRes_res,
    ofNat_toNat_of_nibble (decimalPlaces_lt _ b), ofNat_toNat_of_nibble (dataSign_lt _ b)]
  exact recombine_nibbles c.nibbleMap b

/-! ### XBIT -/

/-- R111's quotient modulo 2 is the bit of that number. -/
theorem ofNat_bitOf (b : Byte) (k : Nat) :
    BitVec.ofNat 32 (bitOf b k) = if b.getLsbD k = true then 1 else 0 := by
  rw [bitOf, ← Nat.toNat_testBit, BitVec.testBit_toNat]
  cases b.getLsbD k <;> rfl

theorem execAt_xbit_of_readByte (c : Config) {off : Nat} (k : Nat) {b : Byte}
    (h : s.readByte off = some b) : execAt c (.xbit off k) s =
      .next { s with res := if b.getLsbD k = true then 1 else 0, err := 0 } :=
  ofNat_bitOf b k ▸ (Completed.xbit off k b h).execAt_eq

/-- Settles O44: XBIT reads no parameter, so one rule serves every setting. -/
theorem xbitReadsTheBit : Obligations.XbitReadsTheBit :=
  ⟨decode_xbit_word, fun s off k _ =>
    ⟨fun _ h => (exec_eq_execAt _ s).trans (execAt_xbit_of_readByte _ k h), exec_of_window_gt rfl,
      fun c => ⟨fun _ h => execAt_xbit_of_readByte c k h,
        fun h => (Raised.xbit off k h).execAt_eq⟩⟩⟩

/-! ### What an extractor reads and writes -/

/-- R100: from any state that agrees on the window, an extractor that completes writes the same RES
and no other element but ERR; XUNIT also writes the same U. -/
theorem Completed.of_same_window {s' : State} {off w : Nat} (h : Completed c s i t)
    (hw : windowOf i = some (off, w))
    (hsame : ∀ j, j < w → s.readByte (off + j) = s'.readByte (off + j)) :
    ∃ u, Completed c s' i (complete (setU u (setRes t.res s'))) ∧
      (i ≠ .xunit off → u = s'.u) ∧ (i = .xunit off → u = t.u) := by
  have hread {j : Nat} {b : Byte} (hj : j < w) (hb : s.readByte (off + j) = some b) :
      s'.readByte (off + j) = some b := (hsame j hj).symm.trans hb
  cases h with
  | xunit _ b hb =>
    cases hw
    exact ⟨unitRecognised b, .xunit off b (hread one_pos hb),
      fun hne => absurd rfl hne, fun _ => rfl⟩
  | xu16 _ _ _ hhi hlo | xcenti _ _ _ hhi hlo =>
    cases hw
    refine ⟨s'.u, ?_, fun _ => rfl, nofun⟩
    constructor
    · exact hread two_pos hhi
    · exact hread one_lt_two hlo
  | xu8 _ b hb | xdp _ b hb | xds _ b hb | xbit _ _ b hb =>
    cases hw
    refine ⟨s'.u, ?_, fun _ => rfl, nofun⟩
    constructor
    exact hread one_pos hb
  | _ => cases hw

/-- Settles O46: a completing extractor is compared with itself for the frame and with the other
state for its result; one that raises is past its window. -/
theorem extractorsReadOnlyTheirWindow : Obligations.ExtractorsReadOnlyTheirWindow := by
  intro i s s' t t' off w hw hexec
  obtain hi | hi := exec_next hexec
  · have herr : t.err ≠ 4 := by rw [hi.err_eq]; decide
    have hin := hi.window_le hw
    obtain ⟨u, hself, hu, -⟩ := hi.of_same_window hw fun _ _ => rfl
    have ht := hself.eq_of_exec hexec
    refine ⟨?_, iff_of_false herr (Nat.not_lt.mpr hin), fun _ => hi.err_eq,
      fun _ _ hsame hexec' => ?_⟩
    · rw [ht]
      exact ⟨rfl, rfl, rfl, rfl, hu⟩
    · obtain ⟨u', hother, -, hu'⟩ := hi.of_same_window hw hsame
      rw [hother.eq_of_exec hexec']
      exact ⟨rfl, fun hx => (hu' hx).symm⟩
  · obtain ⟨hout, rfl⟩ := hi.window_lt hw
    exact ⟨⟨rfl, rfl, rfl, rfl, fun _ => rfl⟩, iff_of_true rfl hout, fun herr => absurd rfl herr,
      fun hin => absurd hin (Nat.not_le.mpr hout)⟩

end Sys2Proof.Machine
end

section
/-! PROOFS. Errors (spec/60_exceptions.md): an error has no partial effect (R124), the errors of a
command are those of its row (R122), and FAULTS at the end of a run names its errors (R129). -/

namespace Sys2Proof

/-! ### The row of a word that decodes -/

/-- A word that decodes matches the row of its command and no other. -/
theorem matches_iff_of_decode {w : Word} {i : Instr} (h : decode w = .ok i) {m : Mnemonic} :
    m.Matches w ↔ i.mnemonic = m := by
  rw [← decodeAgreesWithOpcodeMap w m]
  refine ⟨fun ⟨i', hd, hm⟩ => ?_, fun hm => ⟨i, h, hm⟩⟩
  cases h.symm.trans hd
  exact hm

theorem not_matches_of_decode_error {w : Word} {e : IllegalWord} (h : decode w = .error e)
    (m : Mnemonic) : ¬ m.Matches w := by
  rw [← decodeAgreesWithOpcodeMap w m]
  rintro ⟨i, hd, -⟩
  cases h.symm.trans hd

end Sys2Proof

namespace Sys2Proof.Machine

variable {i : Instr} {k : ErrorKind} {s t : State}

/-! ### Errors are precise -/

/-- R124: the next state of a command that raises, written out. -/
theorem Raised.eq_entry {c : Config} (h : Raised c s i t) :
    ∃ k : ErrorKind, t = { s with
      err := BitVec.ofNat 4 k.code
      faults := s.faults ||| k.faultBit
      v := if i.mnemonic = .VERIFY then false else s.v } := by
  obtain ⟨k, -, rfl⟩ := h.entry
  refine ⟨k, ?_⟩
  split <;> rfl

/-- A command that leaves an error in ERR raised it. -/
theorem raised_of_err_ne_zero (h : exec i s = .next t) (herr : t.err ≠ 0) :
    Raised Config.hardware s i t :=
  (exec_next h).resolve_left fun hc => herr hc.err_eq

/-- Settles O47: a word that decodes matches the row of VERIFY exactly when its command is one, and
an illegal word matches no row. -/
theorem errorsArePrecise : Obligations.ErrorsArePrecise := by
  refine ⟨fun i s t hexec herr => (raised_of_err_ne_zero hexec herr).eq_entry,
    fun w s t hw herr => ?_⟩
  obtain ⟨i, hd, hexec⟩ | ⟨⟨e, hd⟩, rfl⟩ := presentWord_cases hw
  · simp only [matches_iff_of_decode hd]
    exact (raised_of_err_ne_zero hexec herr).eq_entry
  · simp only [not_matches_of_decode_error hd, if_false]
    exact ⟨.illegalCommand, rfl⟩

/-! ### Each error of the table is raised -/

/-- Every capacity is used up, and the last byte is not the checksum of the bytes before it. -/
def fullState : State :=
  { State.reset with
    buf := List.replicate 63 0 ++ [1]
    opc := { tag := .bytes, bytes := List.replicate 8 0 }
    opp := { tag := .bytes, bytes := List.replicate 8 0 } }

theorem verifyMatch_fullState (ifb : Bool) : verifyMatch fullState.buf ifb = false := by
  cases ifb <;> decide

/-- The empty block raises what wants bytes or operands, the full one what wants room or a
checksum. -/
theorem exists_exec_raise_of_mem_possibleErrors (h : k ∈ possibleErrors i) :
    ∃ s t, exec i s = .next (raise k t) := by
  cases i with
  | nop | rst | bclr | opset => cases h
  | bpush | bpushr =>
    cases List.mem_singleton.mp h
    exact ⟨fullState, fullState, exec_append_of_full rfl rfl⟩
  | csum ifb len =>
    cases List.mem_singleton.mp h
    exact ⟨.reset, .reset, exec_csum_of_lt ifb len (by decide)⟩
  | verify ifb strict =>
    have hshort : exec (.verify ifb strict) .reset = .next (raise .invalidInput _) :=
      exec_verify_of_lt strict (by decide)
    cases strict with
    | false =>
      cases List.mem_singleton.mp h
      exact ⟨.reset, _, hshort⟩
    | true =>
      obtain rfl | rfl := List.mem_pair.mp h
      · exact ⟨.reset, _, hshort⟩
      · exact ⟨fullState, _, exec_verify_strict_of_mismatch (by decide) (verifyMatch_fullState ifb)⟩
  | oppush sel b =>
    cases List.mem_singleton.mp h
    exact ⟨fullState, fullState, exec_oppush_of_full b (by cases sel <;> rfl)⟩
  | build =>
    cases List.mem_singleton.mp h
    exact ⟨.reset, .reset, exec_build_of_refused (.inl rfl)⟩
  | xu8 | xu16 | xcenti | xunit | xdp | xds | xbit =>
    cases List.mem_singleton.mp h
    exact ⟨.reset, .reset, exec_of_window_gt rfl (Nat.succ_pos _)⟩

/-! ### IllegalCommand is raised by illegal words alone -/

theorem raise_err_eq_six_iff (k : ErrorKind) (s : State) :
    (raise k s).err = 6 ↔ k = .illegalCommand := by
  rw [raise_err]
  cases k <;> decide

theorem illegalCommand_not_mem_possibleErrors (i : Instr) :
    ErrorKind.illegalCommand ∉ possibleErrors i := by
  cases i with
  | verify ifb strict => cases strict <;> simp [possibleErrors]
  | _ => simp [possibleErrors]

/-- R122: what a command leaves in ERR is 0 or the code of a kind of its row. -/
theorem exec_err_cases (h : exec i s = .next t) :
    t.err = 0 ∨ ∃ k ∈ possibleErrors i, t.err = BitVec.ofNat 4 k.code := by
  obtain hc | hr := exec_next h
  · exact .inl hc.err_eq
  · obtain ⟨k, hk, rfl⟩ := hr.entry
    exact .inr ⟨k, hk, rfl⟩

theorem exec_err_ne_six (h : exec i s = .next t) : t.err ≠ 6 := by
  obtain hz | ⟨k, hk, herr⟩ := exec_err_cases h
  · rw [hz]
    decide
  · rw [herr, ne_eq, ← raise_err k s, raise_err_eq_six_iff]
    rintro rfl
    exact illegalCommand_not_mem_possibleErrors i hk

/-- Settles O48: the row bounds the errors, each of the row is raised from the empty or the full
block, and `IllegalCommand` is in no row. -/
theorem possibleErrorsAreExactlyTheTable : Obligations.PossibleErrorsAreExactlyTheTable := by
  refine ⟨fun i s t => exec_err_cases, fun i k hk => ?_, fun w s t hw => ?_⟩
  · obtain ⟨s, t, hexec⟩ := exists_exec_raise_of_mem_possibleErrors hk
    exact ⟨s, _, hexec, raise_err k t⟩
  · obtain ⟨i, hd, hexec⟩ | ⟨⟨e, hd⟩, rfl⟩ := presentWord_cases hw
    · exact iff_of_false (exec_err_ne_six hexec) fun hno => hno _ (matches_of_decode hd)
    · exact iff_of_true rfl (not_matches_of_decode_error hd)

/-! ### FAULTS at the end of a run -/

/-- Some word of the run raised the error with code `n` (R129). -/
def RunRaises (words : List Word) (s : State) (n : Nat) : Prop :=
  ∃ before w after u v, words = before ++ w :: after ∧ runWords before s = .next u ∧
    presentWord w u = .next v ∧ v.err ≠ 0 ∧ v.err.toNat = n

theorem not_runRaises_nil (s : State) (n : Nat) : ¬ RunRaises [] s n := by
  rintro ⟨before, w, after, -, -, hwords, -⟩
  exact List.append_ne_nil_of_right_ne_nil before (List.cons_ne_nil w after) hwords.symm

/-- A run raises an error at its first word or in the run of the rest. -/
theorem runRaises_cons_iff {w : Word} {u : State} (h : presentWord w s = .next u) (ws : List Word)
    (n : Nat) :
    RunRaises (w :: ws) s n ↔ (u.err ≠ 0 ∧ u.err.toNat = n) ∨ RunRaises ws u n := by
  constructor
  · rintro ⟨before, w', after, u', v, hwords, hrun, hword, herr⟩
    cases before with
    | nil =>
      cases hwords
      cases hrun
      cases h.symm.trans hword
      exact .inl herr
    | cons _ before =>
      cases hwords
      rw [runWords_cons_of_next before h] at hrun
      exact .inr ⟨before, w', after, u', v, rfl, hrun, hword, herr⟩
  · rintro (herr | ⟨before, w', after, u', v, rfl, hrun, hword, herr⟩)
    · exact ⟨[], w, ws, s, u, rfl, rfl, h, herr⟩
    · exact ⟨w :: before, w', after, u', v, rfl, (runWords_cons_of_next before h).trans hrun, hword,
        herr⟩

/-- Settles O54, by induction on the list of words: the first word adds the bit of the error it
raises and no other, and the rest run from there. -/
theorem faultsNameTheErrorsOfTheRun : Obligations.FaultsNameTheErrorsOfTheRun := by
  intro words s t hrst hrun n
  change _ ↔ _ ∨ RunRaises words s n
  induction words generalizing s with
  | nil =>
    cases hrun
    rw [or_iff_left (not_runRaises_nil _ n)]
  | cons w ws ih =>
    obtain ⟨hw, hws⟩ := List.ne_and_not_mem_of_not_mem_cons hrst
    obtain ⟨u, hu⟩ := presentWord_answers w s
    rw [runWords_cons_of_next ws hu] at hrun
    have hfirst : FaultsGainErr s u := presentWord_faultsGainErr hu (Ne.symm hw)
    rw [ih u hws hrun, hfirst n, or_assoc, runRaises_cons_iff hu]

end Sys2Proof.Machine
end
